-- ==== Sys2Proof/Word.lean ====
section
/-! DEFINITION. The word every register of the FILT core holds (R7 REG_WIDTH, R8 bit numbering). -/

namespace Sys2Proof

/-- A register word: 32 bits, bit 0 the least significant (R7, R8). -/
abbrev Word := BitVec 32

/-- A byte of a host's own register image (R39). -/
abbrev Byte := BitVec 8

end Sys2Proof
end

