-- ==== Sys2Proof/Machine/Bus.lean ====
section
/-! DEFINITION. The register window's names and offsets (R18) and what a host can ask of it (R47). -/

namespace Sys2Proof.Machine

/-- The nine data registers (R19): the ones whose content is unspecified after reset (R31). -/
inductive DataReg where
  | xin | yout | dl0 | dl1 | k0 | k1 | k2 | k3 | k4
  deriving DecidableEq, Repr

/-- The registers of the window (R18). -/
inductive RegName where
  /-- CMD, write-only, no storage (R26). -/
  | cmd
  /-- STATUS (R27). -/
  | status
  /-- One of the nine data registers. -/
  | data (r : DataReg)
  deriving DecidableEq, Repr

/-- Every data register, in the order of R18. -/
def dataRegs : List DataReg := [.xin, .yout, .dl0, .dl1, .k0, .k1, .k2, .k3, .k4]

/-- Every register of the window, in the order of R18. -/
def regNames : List RegName := .cmd :: .status :: dataRegs.map .data

/-- A register's byte offset from FILT_BASE (R18). -/
def offsetOf : RegName → BitVec 6
  | .cmd => 0x00#6
  | .status => 0x04#6
  | .data .xin => 0x08#6
  | .data .yout => 0x0C#6
  | .data .dl0 => 0x10#6
  | .data .dl1 => 0x14#6
  | .data .k0 => 0x18#6
  | .data .k1 => 0x1C#6
  | .data .k2 => 0x20#6
  | .data .k3 => 0x24#6
  | .data .k4 => 0x28#6

/-- The register at an offset; none for a reserved slot or a misaligned offset (R18, R35, R38). -/
def regAt (off : BitVec 6) : Option RegName := regNames.find? (fun r => offsetOf r == off)

/-- The width of a host access in bits (R36 names 8, 16, 32 and 64). -/
inductive Width where
  | w8 | w16 | w32 | w64
  deriving DecidableEq, Repr

/-- The direction of a host access, a write with its data word (R63). The data of a write whose width
is not 32 bits reaches no register (R36), so one word stands for it (log entry 12). -/
inductive Dir where
  | read
  | write (v : Word)
  deriving DecidableEq, Repr

/-- One host access to the window: the transaction `(dir, off, data)` of R63, with its width (R36). -/
structure Access where
  width : Width
  off : BitVec 6
  dir : Dir
  deriving DecidableEq, Repr

/-- `off[1:0] = 0` (R37). -/
def aligned (off : BitVec 6) : Bool := off.extractLsb' 0 2 == 0#2

/-- Neither the width nor the alignment is wrong (R36, R37): the first check of R98. -/
def shapeOk (a : Access) : Bool := a.width == .w32 && aligned a.off

/-- What can happen at the core in one step (R47): a host access or a platform reset. -/
inductive HostAction where
  | access (a : Access)
  /-- The platform event of R111. No host access raises it. -/
  | platformReset
  deriving DecidableEq, Repr

/-- One action, and the number of the host agent that issues it (R44, R51). The core distinguishes no
agent (R103): the number only tells whose order an action belongs to. -/
structure Request where
  agent : Nat
  act : HostAction
  deriving DecidableEq, Repr

/-- One word a host agent got back from a read (R47, R123). -/
structure Reply where
  agent : Nat
  word : Word
  deriving DecidableEq, Repr

/-- `HostRead(off)`: a 32-bit read (R12, R40). -/
def hostReadAt (off : BitVec 6) : Access := { width := .w32, off := off, dir := .read }

/-- `HostWrite(off, v)`: a 32-bit write (R12, R41). -/
def hostWriteAt (off : BitVec 6) (v : Word) : Access := { width := .w32, off := off, dir := .write v }

end Sys2Proof.Machine
end

