-- ==== Sys2Proof/Syntax.lean ====
section
/-! DEFINITION. The instruction set: the four commands of spec/opcode_table.json (R55). -/

namespace Sys2Proof

/-- The four commands (R55). No command has an operand field: every operand is an implicit register
(R54, R56). -/
inductive Instr where
  /-- BIQUAD, the second-order IIR section (R79). -/
  | biquad
  /-- AP1, the first-order allpass (R83). -/
  | ap1
  /-- AP2, the second-order allpass (R87). -/
  | ap2
  /-- DCBLK, the DC-blocking filter (R91). -/
  | dcblk
  deriving DecidableEq, Repr

end Sys2Proof
end

