-- ==== Sys2Proof/WellFormed.lean ====
section
/-! DEFINITION. What is well formed: an instruction, a command word (R55), a host access (R36 to R38). -/

namespace Sys2Proof

/-- A command has no operand field (R54), so every constructor is well formed. -/
def Instr.wellFormed : Instr → Bool
  | .biquad => true
  | .ap1 => true
  | .ap2 => true
  | .dcblk => true

/-- A command word is legal exactly when it is one of these four words (R55). -/
def legalCommand (v : Word) : Bool :=
  v == 0x00000000#32 || v == 0x00000001#32 || v == 0x00000002#32 || v == 0x00000003#32

/-- The reserved slots of the window (R35, R38). -/
def Machine.reservedSlots : List (BitVec 6) := [0x2C#6, 0x30#6, 0x34#6, 0x38#6, 0x3C#6]

/-- A host access is well formed when it is no bus error (R95): 32 bits wide (R36), at a multiple of
four (R37), at no reserved slot (R38). -/
def Machine.Access.wellFormed (a : Machine.Access) : Bool :=
  a.width == .w32 && a.off.toNat % 4 == 0 && !Machine.reservedSlots.contains a.off

end Sys2Proof
end

