-- ==== Sys2Proof/Decode.lean ====
section
/-! DEFINITION. The decoder of command words (R57), total, and the encoder (R55). -/

namespace Sys2Proof

/-- Why bits are no instruction. -/
inductive DecodeError where
  /-- RSVD is not zero (R58): IllegalCommand of the word `v` (R96). -/
  | illegalCommand (v : Word)
  /-- A host image that is not four bytes: no command spans or divides a word (R52, R60). -/
  | notOneWord (bytes : Nat)
  deriving DecidableEq, Repr

/-- The RSVD field of a command word, bits 31:2 (R53). -/
def rsvdField (v : Word) : BitVec 30 := v.extractLsb' 2 30

/-- The OP field of a command word, bits 1:0 (R53). -/
def opField (v : Word) : BitVec 2 := v.extractLsb' 0 2

/-- The kind an OP field selects (R53, R57). All four values are assigned (R59). -/
def kindOf (op : BitVec 2) : Instr :=
  if op = 0#2 then .biquad else if op = 1#2 then .ap1 else if op = 2#2 then .ap2 else .dcblk

/-- Decode a command word (R57): RSVD first, then OP. -/
def decode (v : Word) : Except DecodeError Instr :=
  if rsvdField v = 0#30 then .ok (kindOf (opField v)) else .error (.illegalCommand v)

/-- The OP value of each command (R55). -/
def opOf : Instr → BitVec 2
  | .biquad => 0#2
  | .ap1 => 1#2
  | .ap2 => 2#2
  | .dcblk => 3#2

/-- Encode a command: RSVD zero above OP (R53, R55). -/
def encode (i : Instr) : Word := 0#30 ++ opOf i

/-- A register image in the host's own memory: little-endian byte lanes (R39). -/
def hostImage (w : Word) : List Byte :=
  [w.extractLsb' 0 8, w.extractLsb' 8 8, w.extractLsb' 16 8, w.extractLsb' 24 8]

/-- The word of a little-endian host image of four bytes (R39). -/
def wordOfImage : List Byte → Except DecodeError Word
  | [b0, b1, b2, b3] => .ok (b3 ++ b2 ++ b1 ++ b0)
  | bs => .error (.notOneWord bs.length)

/-- Decode the bytes of a host image: total on any bytes. -/
def decodeImage (bs : List Byte) : Except DecodeError Instr := (wordOfImage bs).bind decode

/-- The first `nbits` bits of `w` as a command word, every bit above them zero. -/
def tableWord (nbits w : Nat) : Word := BitVec.ofNat 32 (w % 2 ^ nbits)

/-- The instruction the decoder reads from bits `w` numbered as spec/opcode_table.json numbers them.
No command is longer than one word (R60). -/
def decodeTableWord (nbits w : Nat) : Option Instr :=
  if nbits ≤ 32 then (decodeImage (hostImage (tableWord nbits w))).toOption else none

end Sys2Proof
end

