-- ==== Sys2Proof/Config.lean ====
section
/-! DEFINITION. What the platform or the implementation fixes (R7), and the free values the spec leaves open. -/

namespace Sys2Proof.Config

/-- The block's identity string (R2). A label only: no rule reads it. -/
def identity : String := "FILT-v7"

/-- `WINDOW_SIZE`: bytes of the register window (R7, R35). -/
def windowSize : Nat := 0x40

/-- `N_COEF`: coefficient registers K0..K4 (R7). -/
def nCoef : Nat := 5

/-- `N_DL`: delay-line registers DL0, DL1 (R7). -/
def nDelay : Nat := 2

/-- `N_CONTEXT`: contexts resident at a time (R7, R30). -/
def nContext : Nat := 1

/-- FREE VALUE (log entry 8). `FILT_BASE` is OPEN and a multiple of 0x40 (R7, R35): this is the
multiple. No body: every claim holds for every base. -/
opaque filtBlock : Nat

/-- `FILT_BASE`, the byte address of the window on the host bus (R7, R35). -/
def filtBase : Nat := filtBlock * windowSize

/-- FREE VALUE (log entry 3). `NAN_CHOICE` (R7, R72): the sign (bit 22) and the 22 fraction bits
below the quiet bit (bits 21..0) of the quiet NaN that draw number `n` gives. No body. -/
opaque nanChoice : Nat → BitVec 23

/-- FREE VALUE (log entry 7). The unspecified word that draw number `n` leaves in a data register at
a platform reset within a run (R112, U6). No body. -/
opaque resetWord : Nat → Word

end Sys2Proof.Config
end

