-- ==== Sys2Proof/Machine/Float.lean ====
section
/-! DEFINITION. IEEE 754 binary32 (R64, R65) and the three primitives fadd, fsub, fmul (R66 to R74).

A finite binary32 value is a whole number of units of 2^-149, so exact sums are integers in that unit
and exact products are integers in units of 2^-298. Each primitive computes exactly in integers and
rounds once (R71). -/

namespace Sys2Proof.Machine

/-- Bit 31, the sign (R64). (The fields are read by division, which a kernel leaves alone on an unknown
word; Laws/Float.lean shows that they are the bit fields of R64.) -/
def signOf (w : Word) : Bool := w.toNat / 2 ^ 31 == 1

/-- Bits 30:23, the biased exponent (R64). -/
def expOf (w : Word) : Nat := w.toNat / 2 ^ 23 % 2 ^ 8

/-- Bits 22:0, the fraction (R64). -/
def fracOf (w : Word) : Nat := w.toNat % 2 ^ 23

/-- The value classes of R65. -/
inductive FloatClass where
  | zero | subnormal | normal | infinity | quietNaN | signallingNaN
  deriving DecidableEq, Repr

/-- The class of a pattern, by `(e, f)` (R65). -/
def classify (w : Word) : FloatClass :=
  if expOf w = 0 then
    if fracOf w = 0 then .zero else .subnormal
  else if expOf w = 255 then
    if fracOf w = 0 then .infinity else if fracOf w / 2 ^ 22 = 1 then .quietNaN else .signallingNaN
  else .normal

def isZero (w : Word) : Bool := classify w == .zero
def isInf (w : Word) : Bool := classify w == .infinity
def isQNaN (w : Word) : Bool := classify w == .quietNaN

/-- A NaN, quiet or signalling (R65). -/
def isNaN (w : Word) : Bool := classify w == .quietNaN || classify w == .signallingNaN

/-- Neither an infinity nor a NaN. -/
def isFinite (w : Word) : Bool := !isNaN w && !isInf w

/-- The magnitude of a finite pattern in units of 2^-149 (R65): f for zeros and subnormals,
(2^23 + f) · 2^(e−1) for normals. -/
def magOf (w : Word) : Nat :=
  if expOf w = 0 then fracOf w else (2 ^ 23 + fracOf w) * 2 ^ (expOf w - 1)

/-- The value of a finite pattern in units of 2^-149 (R65). -/
def valOf (w : Word) : Int := if signOf w then -(magOf w : Int) else (magOf w : Int)

/-- IEEE equality, under which −0 == +0 and no NaN equals anything (R65, R81). -/
def ieeeEq (a b : Word) : Bool :=
  !isNaN a && !isNaN b && (a == b || (isZero a && isZero b))

/-- A word from a sign and the 31 bits below it. -/
def packSign (neg : Bool) (p : Nat) : Word := BitVec.ofNat 32 ((if neg then 2 ^ 31 else 0) + p)

/-- The 31 bits of an infinity (R65). -/
def infBits : Nat := 0x7F800000

/-- The signed infinity (R65). -/
def infWord (neg : Bool) : Word := packSign neg infBits

/-- The quiet NaN of draw `d` (R72): e = 255, f[22] = 1, the sign and the other fraction bits free. -/
def quietNaN (d : Nat) : Word :=
  packSign ((Config.nanChoice d).getLsbD 22)
    (infBits + 2 ^ 22 + ((Config.nanChoice d).extractLsb' 0 22).toNat)

/-- The number of binary digits of `n`. -/
def bitLength (n : Nat) : Nat := if n = 0 then 0 else Nat.log2 n + 1

/-- How many low bits of `n` units of 2^-(149+sh) a binary32 of that magnitude drops: enough to leave 24
significant bits, and never so few that a digit below 2^-149 stays (R69, R71, R74). -/
def dropBits (n sh : Nat) : Nat := max sh (bitLength n - 24)

/-- `n / 2^k` rounded to the nearest whole number, ties to even (R71). -/
def divRNE (n k : Nat) : Nat :=
  let q := n / 2 ^ k
  let r := n % 2 ^ k
  if 2 * r > 2 ^ k ∨ (2 * r = 2 ^ k ∧ q % 2 = 1) then q + 1 else q

/-- The 31 bits of the binary32 nearest to `n` units of 2^-(149+sh), ties to even (R71). The kept digits
`q` added to the exponent of their last place times 2^23 are the pattern: the leading digit of a normal
carries one into the exponent field, a subnormal has none, and a rounding that overflows the digits
carries one more. A result that reaches 2^128 is the infinity (R69). -/
def roundBits (n sh : Nat) : Nat :=
  min infBits (2 ^ 23 * (dropBits n sh - sh) + divRNE n (dropBits n sh))

/-- Flip bit 31 (R67). -/
def neg (w : Word) : Word := packSign (!signOf w) (w.toNat % 2 ^ 31)

/-- The sum of two finite patterns (R66). An exact zero sum is −0 only for (−0) + (−0). -/
def addFinite (a b : Word) : Word :=
  if valOf a + valOf b = 0 then packSign (signOf a && signOf b) 0
  else packSign (decide (valOf a + valOf b < 0)) (roundBits (valOf a + valOf b).natAbs 0)

/-- `fadd(a, b)` (R66), its NaN being draw `d`. -/
def fadd (d : Nat) (a b : Word) : Word :=
  if isNaN a || isNaN b then quietNaN d
  else if isInf a then
    if isInf b && (signOf a != signOf b) then quietNaN d else a
  else if isInf b then b
  else addFinite a b

/-- `fsub(a, b)` is `fadd(a, neg(b))` (R67). -/
def fsub (d : Nat) (a b : Word) : Word := fadd d a (neg b)

/-- `fmul(a, b)` (R68), its NaN being draw `d`. -/
def fmul (d : Nat) (a b : Word) : Word :=
  if isNaN a || isNaN b then quietNaN d
  else if (isZero a && isInf b) || (isInf a && isZero b) then quietNaN d
  else if isInf a || isInf b then infWord (signOf a != signOf b)
  else packSign (signOf a != signOf b) (roundBits (magOf a * magOf b) 149)

end Sys2Proof.Machine
end

