-- ==== Sys2Proof/Machine/Algorithms.lean ====
section
/-! DEFINITION. The four filter algorithms, once, over any arithmetic: binary32 for the commands
(R79, R83, R87, R91), exact arithmetic for the transfer functions (R80, R84, R88, R92). -/

namespace Sys2Proof.Machine

/-- An arithmetic: the three operations of R70. The number is the operation's place in its command,
which tells the draws of one command apart (R72). -/
structure Arith (α : Type) where
  add : Nat → α → α → α
  sub : Nat → α → α → α
  mul : Nat → α → α → α

/-- binary32 (R66 to R68), the draws of a command counted from `d`. -/
def binary32 (d : Nat) : Arith Word :=
  { add := fun k => fadd (d + k), sub := fun k => fsub (d + k), mul := fun k => fmul (d + k) }

/-- The coefficients of BIQUAD (R24). -/
structure BiquadCoef (α : Type) where
  a0 : α
  a1 : α
  b0 : α
  b1 : α
  b2 : α

/-- What a command computes: the output sample and the delay line after it. -/
structure Result (α : Type) where
  y : α
  dl0 : α
  dl1 : α

/-- BIQUAD (R79): `y = b0*x + dl0`, `dl0' = b1*x - a0*y + dl1`, `dl1' = b2*x - a1*y`. -/
def biquadAlg {α : Type} (A : Arith α) (c : BiquadCoef α) (x dl0 dl1 : α) : Result α :=
  let y := A.add 1 (A.mul 0 c.b0 x) dl0
  { y := y
    dl0 := A.add 5 (A.sub 4 (A.mul 2 c.b1 x) (A.mul 3 c.a0 y)) dl1
    dl1 := A.sub 8 (A.mul 6 c.b2 x) (A.mul 7 c.a1 y) }

/-- AP1 (R83): `m = (x - t) * b`, `dl' = x + m`, `y = m + t`. There is no second delay element: the pair
is the output sample and DL0. -/
def ap1Alg {α : Type} (A : Arith α) (b x t : α) : α × α :=
  let m := A.mul 1 (A.sub 0 x t) b
  (A.add 3 m t, A.add 2 x m)

/-- AP2 (R87): `t = c3*(x + dl1) + c2*dl0`, `y = t + dl1`, `dl1' = dl0` (a move), `dl0' = x - t`. -/
def ap2Alg {α : Type} (A : Arith α) (c3 c2 x dl0 dl1 : α) : Result α :=
  let t := A.add 3 (A.mul 1 c3 (A.add 0 x dl1)) (A.mul 2 c2 dl0)
  { y := A.add 4 t dl1, dl0 := A.sub 5 x t, dl1 := dl0 }

/-- DCBLK (R91): `y = x - dl0 + b*dl1`, `dl0' = x` and `dl1' = y` (moves). -/
def dcblkAlg {α : Type} (A : Arith α) (b x dl0 dl1 : α) : Result α :=
  let y := A.add 2 (A.sub 0 x dl0) (A.mul 1 b dl1)
  { y := y, dl0 := x, dl1 := y }

end Sys2Proof.Machine
end

