-- ==== Sys2Proof/Machine/State.lean ====
section
/-! DEFINITION. The state of the FILT core and of the run it is in, as plain data; its state after reset; why a step can stop. -/

namespace Sys2Proof.Machine

/-- Why a step stops with a fault. -/
inductive Fault where
  /-- BusError(off) (R13, R95): a host access of another width than 32 bits, misaligned, or at a
  reserved offset. Raised by `step`, through `hostAccess`. No state of the core changes. SAFE: the
  run stops where a host platform may go on (log entry 6; `runOn` of Safety.lean goes on). -/
  | busError (off : BitVec 6)
  /-- Uninit(R) (R13, R31): a read of a register that holds ⊥ since reset. Raised by `strictStep` of
  Safety.lean only, never by `step`, which records the event and goes on as the hardware does (log
  entry 2). SAFE: the strict run stops where the hardware goes on. -/
  | uninit (r : DataReg)
  deriving DecidableEq, Repr

/-- Why a step has no meaning. -/
inductive Refusal where
  /-- An instruction with no meaning yet. Raised by a refused arm of `exec` only; no arm is refused.
  SAFE. -/
  | notModelled (mnemonic : String)
  deriving DecidableEq, Repr

/-- The events of R97, as the observation of a run (R123) records them. -/
inductive Event where
  /-- BUSERR: a bad host access. Recorded by `runOn`, after which the run goes on. -/
  | busError (off : BitVec 6)
  /-- ILLCMD: an illegal command word. The word is not kept (R97). -/
  | illegalCommand
  /-- Uninit, with the register's name (R97). -/
  | uninit (r : DataReg)
  deriving DecidableEq, Repr

/-- For each data register, whether it has been written since reset (R31): model bookkeeping, not
hardware state (R32). A register whose mark is false holds ⊥. -/
structure Marks where
  xin : Bool
  yout : Bool
  dl0 : Bool
  dl1 : Bool
  k0 : Bool
  k1 : Bool
  k2 : Bool
  k3 : Bool
  k4 : Bool
  deriving DecidableEq, Repr

/-- Every register holds ⊥ (R33). -/
def Marks.none : Marks :=
  { xin := false, yout := false, dl0 := false, dl1 := false, k0 := false, k1 := false, k2 := false,
    k3 := false, k4 := false }

/-- The whole machine. -/
structure State where
  /-- XIN, the input sample (R20). -/
  xin : Word
  /-- YOUT, the output sample (R21). -/
  yout : Word
  /-- DL0, delay-line element `dl[0]` (R22). -/
  dl0 : Word
  /-- DL1, delay-line element `dl[1]` (R22). -/
  dl1 : Word
  /-- K0 (R24). -/
  k0 : Word
  /-- K1 (R24). -/
  k1 : Word
  /-- K2 (R24). -/
  k2 : Word
  /-- K3 (R24). -/
  k3 : Word
  /-- K4 (R24). -/
  k4 : Word
  /-- STATUS bit 0, ILLCMD (R27). Bits 31:1 have no storage. -/
  illcmd : Bool
  /-- Which data registers have been written since reset (R31). -/
  written : Marks
  /-- The requests still to be performed, in the order of the host port (R44). -/
  port : List Request
  /-- What the host agents have read so far, oldest first (R123). -/
  replies : List Reply
  /-- The events so far, oldest first (R97, R123). -/
  events : List Event
  /-- THE MODEL'S OWN FIELD (log entry 4): how many free values have been drawn. -/
  draws : Nat
  deriving DecidableEq, Repr

/-- The machine right after reset (R33, R112): STATUS 0, every data register unwritten, no access
pending. The data registers' contents, which the spec leaves unspecified, are the zero of log entry 1. -/
def State.reset : State :=
  { xin := 0#32, yout := 0#32, dl0 := 0#32, dl1 := 0#32,
    k0 := 0#32, k1 := 0#32, k2 := 0#32, k3 := 0#32, k4 := 0#32,
    illcmd := false, written := Marks.none, port := [], replies := [], events := [], draws := 0 }

end Sys2Proof.Machine
end

