-- ==== Sys2Proof/Machine/Ops.lean ====
section
/-! DEFINITION. The named operations over the registers, the marks, the events and the replies; platform reset. -/

namespace Sys2Proof.Machine

/-- `x[R]` (R9): the word a data register holds. -/
def State.get (s : State) : DataReg → Word
  | .xin => s.xin
  | .yout => s.yout
  | .dl0 => s.dl0
  | .dl1 => s.dl1
  | .k0 => s.k0
  | .k1 => s.k1
  | .k2 => s.k2
  | .k3 => s.k3
  | .k4 => s.k4

/-- Whether a data register holds a value since reset, and not ⊥ (R31). -/
def State.isWritten (s : State) : DataReg → Bool
  | .xin => s.written.xin
  | .yout => s.written.yout
  | .dl0 => s.written.dl0
  | .dl1 => s.written.dl1
  | .k0 => s.written.k0
  | .k1 => s.written.k1
  | .k2 => s.written.k2
  | .k3 => s.written.k3
  | .k4 => s.written.k4

/-- `x[R] <- v` (R9): the 32 bits unchanged (R19), and the register holds a value from now on (R31). -/
def State.set (s : State) (r : DataReg) (v : Word) : State :=
  match r with
  | .xin => { s with xin := v, written := { s.written with xin := true } }
  | .yout => { s with yout := v, written := { s.written with yout := true } }
  | .dl0 => { s with dl0 := v, written := { s.written with dl0 := true } }
  | .dl1 => { s with dl1 := v, written := { s.written with dl1 := true } }
  | .k0 => { s with k0 := v, written := { s.written with k0 := true } }
  | .k1 => { s with k1 := v, written := { s.written with k1 := true } }
  | .k2 => { s with k2 := v, written := { s.written with k2 := true } }
  | .k3 => { s with k3 := v, written := { s.written with k3 := true } }
  | .k4 => { s with k4 := v, written := { s.written with k4 := true } }

/-- The first register of a list that holds ⊥ (R31); which one an Uninit names is log entry 9. -/
def firstUnwritten (rs : List DataReg) (s : State) : Option DataReg :=
  rs.find? (fun r => !s.isWritten r)

/-- Record an event (R97, R123). -/
def State.note (s : State) (e : Event) : State := { s with events := s.events ++ [e] }

/-- Reading these registers raises Uninit for one that holds ⊥ (R31): the event is recorded, at most
one (R98), and the machine goes on as the hardware does (log entry 2). -/
def noteUninit (rs : List DataReg) (s : State) : State :=
  match firstUnwritten rs s with
  | some r => s.note (.uninit r)
  | none => s

/-- `n` free values have been drawn (log entry 4). -/
def State.advanceDraws (s : State) (n : Nat) : State := { s with draws := s.draws + n }

/-- A host agent gets a word back from a read (R47). -/
def State.reply (s : State) (agent : Nat) (v : Word) : State :=
  { s with replies := s.replies ++ [{ agent := agent, word := v }] }

/-- `raise IllegalCommand` (R96), the only event the core itself takes: ILLCMD becomes 1 and no other
register changes. There is no trap entry: nothing is saved and no control is transferred (R100). -/
def illegalCommand (s : State) : State :=
  { s with illcmd := true, events := s.events ++ [.illegalCommand] }

/-- The recovery from it (R101), there being no trap return: the host clears ILLCMD. -/
def clearIllegal (s : State) : State := { s with illcmd := false }

/-- A platform reset within a run (R111, R112): STATUS 0 and every data register at ⊥, its content
unspecified, so a free value (log entry 7). The requests, the replies and the events belong to the
run, not to the core, and stay. -/
def platformReset (s : State) : State :=
  { s with
    xin := Config.resetWord s.draws
    yout := Config.resetWord (s.draws + 1)
    dl0 := Config.resetWord (s.draws + 2)
    dl1 := Config.resetWord (s.draws + 3)
    k0 := Config.resetWord (s.draws + 4)
    k1 := Config.resetWord (s.draws + 5)
    k2 := Config.resetWord (s.draws + 6)
    k3 := Config.resetWord (s.draws + 7)
    k4 := Config.resetWord (s.draws + 8)
    illcmd := false
    written := Marks.none
    draws := s.draws + 9 }

end Sys2Proof.Machine
end

