-- ==== Sys2Proof/Machine/Operands.lean ====
section
/-! DEFINITION. The implicit operands of each command (R54, R56) and its operation count (R122). -/

namespace Sys2Proof.Machine

/-- The registers a command reads (R56). -/
def operandsRead : Instr → List DataReg
  | .biquad => [.xin, .dl0, .dl1, .k0, .k1, .k2, .k3, .k4]
  | .ap1 => [.xin, .dl0, .k0]
  | .ap2 => [.xin, .dl0, .dl1, .k0, .k1]
  | .dcblk => [.xin, .dl0, .dl1, .k0]

/-- The registers a command writes (R56). AP1 leaves DL1 alone (R83). -/
def operandsWritten : Instr → List DataReg
  | .biquad => [.yout, .dl0, .dl1]
  | .ap1 => [.yout, .dl0]
  | .ap2 => [.yout, .dl0, .dl1]
  | .dcblk => [.yout, .dl0, .dl1]

/-- How many `fmul`, `fadd` and `fsub` a command performs (R122): each may draw a NaN afresh (R72). -/
def opCount : Instr → Nat
  | .biquad => 9
  | .ap1 => 4
  | .ap2 => 6
  | .dcblk => 3

/-- The writes of a command that leaves DL1 alone (R14: they come after every read). -/
def writeOutDl0 (y dl0' : Word) (s : State) : State := (s.set .yout y).set .dl0 dl0'

/-- The writes of a command that updates both delay elements (R14: they come after every read). -/
def writeOutDl01 (y dl0' dl1' : Word) (s : State) : State :=
  ((s.set .yout y).set .dl0 dl0').set .dl1 dl1'

end Sys2Proof.Machine
end

