-- ==== Sys2Proof/Machine/Filters.lean ====
section
/-! DEFINITION. The meanings of the four commands (R79, R83, R87, R91). No command faults, sets a flag or raises an exception (R29, R73, R94). -/

namespace Sys2Proof.Machine

/-- BIQUAD (R79), K0..K4 = a0, a1, b0, b1, b2 (R24). -/
def execBiquad (s : State) : Host.Outcome State Fault Refusal :=
  let r := biquadAlg (binary32 s.draws)
    { a0 := s.get .k0, a1 := s.get .k1, b0 := s.get .k2, b1 := s.get .k3, b2 := s.get .k4 }
    (s.get .xin) (s.get .dl0) (s.get .dl1)
  .next ((writeOutDl01 r.y r.dl0 r.dl1 (noteUninit (operandsRead .biquad) s)).advanceDraws
    (opCount .biquad))

/-- AP1 (R83), K0 = b. DL1 is neither read nor written. -/
def execAp1 (s : State) : Host.Outcome State Fault Refusal :=
  let r := ap1Alg (binary32 s.draws) (s.get .k0) (s.get .xin) (s.get .dl0)
  .next ((writeOutDl0 r.1 r.2 (noteUninit (operandsRead .ap1) s)).advanceDraws (opCount .ap1))

/-- AP2 (R87), K0 = c3, K1 = c2. -/
def execAp2 (s : State) : Host.Outcome State Fault Refusal :=
  let r := ap2Alg (binary32 s.draws) (s.get .k0) (s.get .k1) (s.get .xin) (s.get .dl0) (s.get .dl1)
  .next ((writeOutDl01 r.y r.dl0 r.dl1 (noteUninit (operandsRead .ap2) s)).advanceDraws
    (opCount .ap2))

/-- DCBLK (R91), K0 = b. -/
def execDcblk (s : State) : Host.Outcome State Fault Refusal :=
  let r := dcblkAlg (binary32 s.draws) (s.get .k0) (s.get .xin) (s.get .dl0) (s.get .dl1)
  .next ((writeOutDl01 r.y r.dl0 r.dl1 (noteUninit (operandsRead .dcblk) s)).advanceDraws
    (opCount .dcblk))

end Sys2Proof.Machine
end

