-- ==== Sys2Proof/Machine/Dispatch.lean ====
section
/-! DEFINITION. Which meaning each command has: one arm per constructor. -/

namespace Sys2Proof.Machine

/-- Run one command (R57). -/
def exec (i : Instr) (s : State) : Host.Outcome State Fault Refusal :=
  match i with
  | .biquad => Sys2Proof.Machine.execBiquad s
  | .ap1 => Sys2Proof.Machine.execAp1 s
  | .ap2 => Sys2Proof.Machine.execAp2 s
  | .dcblk => Sys2Proof.Machine.execDcblk s

end Sys2Proof.Machine
end

