-- ==== Sys2Proof/Machine/Flags.lean ====
section
/-! DEFINITION. The STATUS register (R27): the one flag of the core. There are no condition codes and no floating-point flags (R29, R73). -/

namespace Sys2Proof.Machine

/-- The word a read of STATUS returns: `{0[31:1], ILLCMD}` (R27, R40). -/
def statusWord (s : State) : Word := if s.illcmd then 0x00000001#32 else 0x00000000#32

/-- A write of STATUS: bit 0 = 1 clears ILLCMD, bit 0 = 0 leaves it, bits 31:1 are ignored (R27, R41). -/
def writeStatus (v : Word) (s : State) : State := if v.getLsbD 0 then clearIllegal s else s

end Sys2Proof.Machine
end

