-- ==== Sys2Proof/Machine/HostPort.lean ====
section
/-! DEFINITION. The host port: where an address falls, host reads and writes, Execute, and performing one request (R35 to R47, R57, R98). -/

namespace Sys2Proof.Machine

/-- The window offset of a byte address on the host bus, none outside the window (R12, R35). -/
def route (addr : Nat) : Option (BitVec 6) :=
  if Config.filtBase ≤ addr ∧ addr < Config.filtBase + Config.windowSize then
    some (BitVec.ofNat 6 (addr - Config.filtBase))
  else none

/-- A host agent issues an access on the host bus: within the window it waits at the port for its turn,
and what the platform puts outside is not part of this hardware (R35). -/
def State.submit (s : State) (agent addr : Nat) (width : Width) (dir : Dir) : State :=
  match route addr with
  | some off =>
    { s with port := s.port ++
        [{ agent := agent, act := .access { width := width, off := off, dir := dir } }] }
  | none => s

/-- `Execute(v)` (R57): run the command of a word written to CMD, or raise IllegalCommand. -/
def execute (v : Word) (s : State) : Host.Outcome State Fault Refusal :=
  match decode v with
  | .ok i => exec i s
  | .error _ => .next (illegalCommand s)

/-- The registers a host read or write of a register reads as operands of its own: a data register that
is read (R31). -/
def readsOf : RegName → List DataReg
  | .cmd => []
  | .status => []
  | .data r => [r]

/-- What a host read of a register returns (R40): CMD reads zero (R26). -/
def readWord (r : RegName) (s : State) : Word :=
  match r with
  | .cmd => 0#32
  | .status => statusWord s
  | .data d => s.get d

/-- `HostRead` of a register (R40): the agent gets the word; nothing else changes but a record of an
Uninit. -/
def hostRead (agent : Nat) (r : RegName) (s : State) : State :=
  (noteUninit (readsOf r) s).reply agent (readWord r s)

/-- `HostWrite` of a register (R41). -/
def hostWrite (r : RegName) (v : Word) (s : State) : Host.Outcome State Fault Refusal :=
  match r with
  | .cmd => execute v s
  | .status => .next (writeStatus v s)
  | .data .yout => .next s
  | .data .xin => .next (s.set .xin v)
  | .data .dl0 => .next (s.set .dl0 v)
  | .data .dl1 => .next (s.set .dl1 v)
  | .data .k0 => .next (s.set .k0 v)
  | .data .k1 => .next (s.set .k1 v)
  | .data .k2 => .next (s.set .k2 v)
  | .data .k3 => .next (s.set .k3 v)
  | .data .k4 => .next (s.set .k4 v)

/-- One host access (R40, R41), checked in the order of R98: width and alignment, reserved offset, then
the register's own rule. -/
def hostAccess (agent : Nat) (a : Access) (s : State) : Host.Outcome State Fault Refusal :=
  if shapeOk a then
    match regAt a.off with
    | none => .fault (.busError a.off)
    | some r =>
      match a.dir with
      | .read => .next (hostRead agent r s)
      | .write v => hostWrite r v s
  else .fault (.busError a.off)

/-- Perform one request (R47). -/
def perform (q : Request) (s : State) : Host.Outcome State Fault Refusal :=
  match q.act with
  | .access a => hostAccess q.agent a s
  | .platformReset => .next (platformReset s)

/-- One step of the port (R43, R44): the first request takes effect, whole, and leaves the port. With
none waiting the core is idle (R28). -/
def portStep (s : State) : Host.Outcome State Fault Refusal :=
  match s.port with
  | [] => .next s
  | q :: rest => perform q { s with port := rest }

/-- A command word written to CMD by agent 0, first in the port's order. -/
def State.withCommand (s : State) (v : Word) : State :=
  { s with port := { agent := 0, act := .access (hostWriteAt (offsetOf .cmd) v) } :: s.port }

end Sys2Proof.Machine
end

