-- ==== Sys2Proof/Machine/Step.lean ====
section
/-! DEFINITION. One step of the machine, and the placing of an instruction where the next step finds it. -/

namespace Sys2Proof.Machine

/-- One step: the host port performs its first request, or the core is idle (R28, R43, R44). -/
def step (s : State) : Host.Outcome State Fault Refusal := portStep s

/-- `s` with the command of bits `w` as the next request: the host writes the word to CMD (R52). -/
def State.withFetchWord (s : State) (nbits w : Nat) : State := s.withCommand (tableWord nbits w)

end Sys2Proof.Machine
end

