-- ==== Sys2Proof/Machine/Script.lean ====
section
/-! DEFINITION. Host scripts: lines (R61), pseudo-instructions (R62), transactions (R63), and running them against the core. -/

namespace Sys2Proof.Machine

/-- A `<value>` (R61): a hex word, a decimal `digits / 10^scale` with its sign, or a host variable. -/
inductive Value where
  | hex (v : Word)
  | decimal (negative : Bool) (digits scale : Nat)
  | var (name : String)
  deriving DecidableEq, Repr

/-- A script line (R61) or pseudo-instruction (R62). -/
inductive Line where
  /-- `WR <reg>, <value>` -/
  | wr (r : RegName) (v : Value)
  /-- `RD <reg> -> <name>` -/
  | rd (r : RegName) (name : String)
  /-- `BIQUAD`, `AP1`, `AP2` or `DCBLK` -/
  | command (i : Instr)
  /-- `CMDW <hex>`: a raw command word, legal or not -/
  | cmdw (v : Word)
  | clrdl
  | clrst
  | ldbq (a0 a1 b0 b1 b2 : Value)
  | ldap1 (b : Value)
  | lddc (b : Value)
  | ldap2 (c3 c2 : Value)
  | save (s0 s1 : String)
  | restore (s0 s1 : Value)
  /-- `STEP <op>, x -> y` -/
  | sample (i : Instr) (x : Value) (y : String)
  deriving DecidableEq, Repr

/-- A script: lines, and the host-side loop `REPEAT n … END` (R62). -/
inductive Script where
  | done
  | line (l : Line) (rest : Script)
  | loop (n : Nat) (body rest : Script)
  deriving DecidableEq, Repr

/-- A loop count is at least one (R62). -/
def Script.wellFormed : Script → Bool
  | .done => true
  | .line _ rest => rest.wellFormed
  | .loop n body rest => decide (1 ≤ n) && body.wellFormed && rest.wellFormed

/-- One host access of a script before its value is known. -/
inductive Prim where
  | wr (r : RegName) (v : Value)
  | rd (r : RegName) (name : String)
  deriving DecidableEq, Repr

/-- A zero word. -/
def Value.zero : Value := .hex 0x00000000#32

/-- A line's accesses: the mnemonics of R61 and the expansions of R62. -/
def Line.expand : Line → List Prim
  | .wr r v => [.wr r v]
  | .rd r name => [.rd r name]
  | .command i => [.wr .cmd (.hex (encode i))]
  | .cmdw v => [.wr .cmd (.hex v)]
  | .clrdl => [.wr (.data .dl0) .zero, .wr (.data .dl1) .zero]
  | .clrst => [.wr .status (.hex 0x00000001#32)]
  | .ldbq a0 a1 b0 b1 b2 =>
    [.wr (.data .k0) a0, .wr (.data .k1) a1, .wr (.data .k2) b0, .wr (.data .k3) b1,
      .wr (.data .k4) b2]
  | .ldap1 b => [.wr (.data .k0) b]
  | .lddc b => [.wr (.data .k0) b]
  | .ldap2 c3 c2 => [.wr (.data .k0) c3, .wr (.data .k1) c2]
  | .save s0 s1 => [.rd (.data .dl0) s0, .rd (.data .dl1) s1]
  | .restore s0 s1 => [.wr (.data .dl0) s0, .wr (.data .dl1) s1]
  | .sample i x y => [.wr (.data .xin) x, .wr .cmd (.hex (encode i)), .rd (.data .yout) y]

/-- A script's accesses in order, loops expanded: the core sees nothing else (R62). -/
def Script.expand : Script → List Prim
  | .done => []
  | .line l rest => l.expand ++ rest.expand
  | .loop n body rest => (List.replicate n body.expand).flatten ++ rest.expand

/-- Why a script stops before its end. -/
inductive ScriptStop where
  /-- A decimal that is not exact in binary32: the assembler refuses the script (R61). -/
  | inexactDecimal (negative : Bool) (digits scale : Nat)
  /-- A host variable that holds no word. -/
  | unsetVariable (name : String)
  | fault (f : Fault)
  | refused (r : Refusal)
  deriving DecidableEq, Repr

/-- The binary32 pattern of `digits / 10^scale`, if it is exact (R15, R61). -/
def decimalWord (negative : Bool) (digits scale : Nat) : Option Word :=
  let n := digits * 2 ^ 149 / 10 ^ scale
  let w := packSign negative (roundBits n 0)
  if digits * 2 ^ 149 % 10 ^ scale = 0 ∧ isFinite w = true ∧ magOf w = n then some w else none

/-- The decimal that the assembler refuses, if the access carries one: it is not exact in binary32 (R61). -/
def Prim.refused : Prim → Option ScriptStop
  | .wr _ (.decimal neg digits scale) =>
    if (decimalWord neg digits scale).isSome then none else some (.inexactDecimal neg digits scale)
  | .wr _ (.hex _) => none
  | .wr _ (.var _) => none
  | .rd _ _ => none

/-- A value's word (R61). DESIGN CHOICE (log entry 15): `Script.run` and the text's `parseValue` have
refused an inexact decimal before any access is performed; accesses that reach `runPrims` by neither way
stop at it when it is reached, as they do at a host variable that holds no word. -/
def Value.resolve (vars : List (String × Word)) : Value → Except ScriptStop Word
  | .hex v => .ok v
  | .decimal neg digits scale =>
    match decimalWord neg digits scale with
    | some w => .ok w
    | none => .error (.inexactDecimal neg digits scale)
  | .var name =>
    match vars.lookup name with
    | some w => .ok w
    | none => .error (.unsetVariable name)

/-- The bus transaction of an access (R63). -/
def Prim.transaction (vars : List (String × Word)) : Prim → Except ScriptStop Access
  | .wr r v =>
    match v.resolve vars with
    | .ok w => .ok (hostWriteAt (offsetOf r) w)
    | .error e => .error e
  | .rd r _ => .ok (hostReadAt (offsetOf r))

/-- A host running a script: its variables, the transactions sent so far, and the core. -/
structure HostRun where
  core : State
  vars : List (String × Word)
  sent : List Access
  deriving DecidableEq, Repr

/-- The host's variables after an access: a read binds its name to the word that came back (R61). -/
def bindReply (p : Prim) (t : State) (vars : List (String × Word)) : List (String × Word) :=
  match p, t.replies.getLast? with
  | .rd _ name, some r => (name, r.word) :: vars
  | .rd _ _, none => vars
  | .wr _ _, _ => vars

/-- Perform one access as host agent `agent`, by a step function of the core (`step`, or the
`strictStep` of Safety.lean). -/
def Prim.run (stepBy : State → Host.Outcome State Fault Refusal) (agent : Nat) (p : Prim)
    (h : HostRun) : Except ScriptStop HostRun :=
  match p.transaction h.vars with
  | .error e => .error e
  | .ok a =>
    match stepBy { h.core with port := { agent := agent, act := .access a } :: h.core.port } with
    | .next t => .ok { core := t, vars := bindReply p t h.vars, sent := h.sent ++ [a] }
    | .fault f => .error (.fault f)
    | .refused r => .error (.refused r)

/-- Perform accesses in order (R63, R123). -/
def runPrims (stepBy : State → Host.Outcome State Fault Refusal) (agent : Nat) :
    List Prim → HostRun → Except ScriptStop HostRun
  | [], h => .ok h
  | p :: ps, h =>
    match p.run stepBy agent h with
    | .ok h' => runPrims stepBy agent ps h'
    | .error e => .error e

/-- Run a script from given host variables and a given core state: refused whole, with no access
performed, if it holds an inexact decimal (R61; which of several is named is log entry 15). -/
def Script.run (stepBy : State → Host.Outcome State Fault Refusal) (agent : Nat) (p : Script)
    (vars : List (String × Word)) (s : State) : Except ScriptStop HostRun :=
  match p.expand.findSome? Prim.refused with
  | some e => .error e
  | none => runPrims stepBy agent p.expand { core := s, vars := vars, sent := [] }

end Sys2Proof.Machine
end

