-- ==== Sys2Proof/Machine/Assembler.lean ====
section
/-! DEFINITION. The text of host scripts (R61, R62): from characters to lines. What R61 leaves open of the text is log entry 15. -/

namespace Sys2Proof.Machine

/-- A register's name in a script (R18, R61). -/
def regText : RegName → String
  | .cmd => "CMD"
  | .status => "STATUS"
  | .data .xin => "XIN"
  | .data .yout => "YOUT"
  | .data .dl0 => "DL0"
  | .data .dl1 => "DL1"
  | .data .k0 => "K0"
  | .data .k1 => "K1"
  | .data .k2 => "K2"
  | .data .k3 => "K3"
  | .data .k4 => "K4"

/-- A command's mnemonic (R55). -/
def mnemonicText : Instr → String
  | .biquad => "BIQUAD"
  | .ap1 => "AP1"
  | .ap2 => "AP2"
  | .dcblk => "DCBLK"

/-- Two words are the same but for the case of their letters (R61). -/
def sameWord (text : String) (cs : List Char) : Bool :=
  text.toList == cs.map Char.toUpper

/-- A register by its name, case-insensitively (R61). -/
def parseReg (cs : List Char) : Option RegName := regNames.find? (fun r => sameWord (regText r) cs)

/-- A command by its mnemonic, case-insensitively (R61). -/
def parseCommand (cs : List Char) : Option Instr :=
  [Instr.biquad, .ap1, .ap2, .dcblk].find? (fun i => sameWord (mnemonicText i) cs)

/-- The value of a digit. -/
def digitOf (c : Char) : Option Nat :=
  let n := c.toNat
  if 48 ≤ n ∧ n ≤ 57 then some (n - 48)
  else if 65 ≤ n ∧ n ≤ 70 then some (n - 55)
  else if 97 ≤ n ∧ n ≤ 102 then some (n - 87)
  else none

/-- The number of a nonempty run of digits of a base. -/
def parseDigits (base : Nat) : List Char → Option Nat
  | [] => none
  | c :: cs =>
    (c :: cs).foldl
      (fun acc d =>
        match acc, digitOf d with
        | some n, some k => if k < base then some (n * base + k) else none
        | _, _ => none)
      (some 0)

/-- A hex word: `0x` and eight digits (R8). -/
def parseHex : List Char → Option Word
  | '0' :: 'x' :: ds =>
    if ds.length = 8 then (parseDigits 16 ds).map (BitVec.ofNat 32) else none
  | _ => none

/-- An unsigned decimal: digits, and perhaps a point and more digits. The answer is the digits as one
number and how many stand after the point. -/
def parseUnsigned (cs : List Char) : Option (Nat × Nat) :=
  let whole := cs.takeWhile (· != '.')
  match cs.dropWhile (· != '.') with
  | [] => (parseDigits 10 whole).map (fun n => (n, 0))
  | _ :: part =>
    match parseDigits 10 whole, parseDigits 10 part with
    | some n, some m => some (n * 10 ^ part.length + m, part.length)
    | _, _ => none

/-- A decimal value, if it is exact in binary32 (R61). -/
def exactDecimal (negative : Bool) (digits scale : Nat) : Option Value :=
  (decimalWord negative digits scale).map (fun _ => .decimal negative digits scale)

/-- A decimal value with an optional minus sign (R15, R61). -/
def parseDecimal : List Char → Option Value
  | '-' :: cs => (parseUnsigned cs).bind (fun p => exactDecimal true p.1 p.2)
  | cs => (parseUnsigned cs).bind (fun p => exactDecimal false p.1 p.2)

/-- A host variable's name: a letter or an underscore, then letters, digits, underscores. -/
def parseVar : List Char → Option String
  | [] => none
  | c :: cs =>
    if (c.isAlpha || c == '_') && cs.all (fun d => d.isAlphanum || d == '_') then
      some (String.ofList (c :: cs))
    else none

/-- A `<value>` (R61). None for a decimal that is not exact in binary32: the assembler refuses it, and
with it the script. -/
def parseValue (cs : List Char) : Option Value :=
  match parseHex cs with
  | some w => some (.hex w)
  | none =>
    match parseDecimal cs with
    | some v => some v
    | none => (parseVar cs).map .var

/-- Cut a line into words: blanks divide them and a comma is a word of its own. -/
def tokensFrom : List Char → List Char → List (List Char)
  | cur, [] => if cur.isEmpty then [] else [cur.reverse]
  | cur, c :: cs =>
    if c == ' ' || c == '\t' then
      if cur.isEmpty then tokensFrom [] cs else cur.reverse :: tokensFrom [] cs
    else if c == ',' then
      if cur.isEmpty then [','] :: tokensFrom [] cs else cur.reverse :: [','] :: tokensFrom [] cs
    else tokensFrom (c :: cur) cs

/-- The words of a line before its comment (R61). -/
def tokens (cs : List Char) : List (List Char) := tokensFrom [] (cs.takeWhile (· != ';'))

/-- What a line of text is. -/
inductive Item where
  | blank
  | line (l : Line)
  /-- `REPEAT n` -/
  | loopStart (n : Nat)
  /-- `END` -/
  | loopEnd
  deriving DecidableEq, Repr

/-- A line of several values: `LDBQ`, `LDAP1`, `LDDC`, `LDAP2`, `RESTORE` (R62). -/
def parseValues (m : List Char) (vs : List Value) : Option Line :=
  match vs with
  | [b] =>
    if sameWord "LDAP1" m then some (.ldap1 b)
    else if sameWord "LDDC" m then some (.lddc b) else none
  | [u, v] =>
    if sameWord "LDAP2" m then some (.ldap2 u v)
    else if sameWord "RESTORE" m then some (.restore u v) else none
  | [a0, a1, b0, b1, b2] => if sameWord "LDBQ" m then some (.ldbq a0 a1 b0 b1 b2) else none
  | _ => none

/-- The words at the places of a comma-separated list. -/
def commaSeparated : List (List Char) → Option (List (List Char))
  | [] => none
  | [t] => some [t]
  | t :: [','] :: rest => (commaSeparated rest).map (t :: ·)
  | _ => none

/-- A line from its words (R61, R62). -/
def parseTokens : List (List Char) → Option Item
  | [] => some .blank
  | [m] =>
    if sameWord "CLRDL" m then some (.line .clrdl)
    else if sameWord "CLRST" m then some (.line .clrst)
    else if sameWord "END" m then some .loopEnd
    else (parseCommand m).map (fun i => .line (.command i))
  | [m, r, ['-', '>'], name] =>
    if sameWord "RD" m then
      match parseReg r, parseVar name with
      | some r, some name => some (.line (.rd r name))
      | _, _ => none
    else none
  | [m, op, [','], x, ['-', '>'], y] =>
    if sameWord "STEP" m then
      match parseCommand op, parseValue x, parseVar y with
      | some i, some x, some y => some (.line (.sample i x y))
      | _, _, _ => none
    else none
  | m :: rest =>
    if sameWord "REPEAT" m then
      match rest with
      | [n] => (parseDigits 10 n).map .loopStart
      | _ => none
    else if sameWord "CMDW" m then
      match rest with
      | [w] => (parseHex w).map (fun w => .line (.cmdw w))
      | _ => none
    else if sameWord "WR" m then
      match rest with
      | [r, [','], v] =>
        match parseReg r, parseValue v with
        | some r, some v => some (.line (.wr r v))
        | _, _ => none
      | _ => none
    else if sameWord "SAVE" m then
      match rest with
      | [s0, [','], s1] =>
        match parseVar s0, parseVar s1 with
        | some s0, some s1 => some (.line (.save s0 s1))
        | _, _ => none
      | _ => none
    else
      match (commaSeparated rest).bind (fun ts => ts.mapM parseValue) with
      | some vs => (parseValues m vs).map .line
      | none => none

/-- A line of text (R61). None where the assembler refuses it. -/
def parseLine (text : String) : Option Item := parseTokens (tokens text.toList)

/-- Join an item to what follows it: the script from here on, and the scripts that stand after the
`END`s seen so far. -/
def joinItem (i : Item) (after : Script × List Script) : Option (Script × List Script) :=
  match i with
  | .blank => some after
  | .line l => some (.line l after.1, after.2)
  | .loopEnd => some (.done, after.1 :: after.2)
  | .loopStart n =>
    match after.2 with
    | rest :: outer => if 1 ≤ n then some (.loop n after.1 rest, outer) else none
    | [] => none

/-- A script from its lines. None where a line is refused or `REPEAT` and `END` do not match. -/
def assemble (lines : List String) : Option Script :=
  let joined := lines.foldr
    (fun text after =>
      match parseLine text, after with
      | some i, some after => joinItem i after
      | _, _ => none)
    (some (Script.done, []))
  match joined with
  | some (p, []) => some p
  | _ => none

end Sys2Proof.Machine
end

