-- ==== Sys2Proof/Machine/Exact.lean ====
section
/-! DEFINITION. The four algorithms in exact arithmetic, sample by sample from the zero delay line: what the transfer functions of R80, R84, R88, R92 speak of. -/

namespace Sys2Proof.Machine

/-- Exact arithmetic: no rounding and no NaN (R80 "in exact arithmetic"). -/
def exactArith (R : Type) [CommRing R] : Arith R :=
  { add := fun _ a b => a + b, sub := fun _ a b => a - b, mul := fun _ a b => a * b }

/-- The delay line before sample `n`, when `f` takes each sample of `x` in turn from `d`. -/
def delayAt {α σ : Type} (f : α → σ → α × σ) (x : Nat → α) (d : σ) : Nat → σ
  | 0 => d
  | n + 1 => (f (x n) (delayAt f x d n)).2

/-- Output sample `n`: the call pattern of R3, the delay line kept across the calls (R23). -/
def outputAt {α σ : Type} (f : α → σ → α × σ) (x : Nat → α) (d : σ) (n : Nat) : α :=
  (f (x n) (delayAt f x d n)).1

/-- A result as output sample and delay line. -/
def Result.pair {α : Type} (r : Result α) : α × (α × α) := (r.y, (r.dl0, r.dl1))

variable {R : Type} [CommRing R]

/-- BIQUAD on one sample in exact arithmetic (R79, R80). -/
def biquadExact (c : BiquadCoef R) (x : R) (d : R × R) : R × (R × R) :=
  (biquadAlg (exactArith R) c x d.1 d.2).pair

/-- AP1 on one sample in exact arithmetic (R83, R84). -/
def ap1Exact (b x : R) (t : R) : R × R := ap1Alg (exactArith R) b x t

/-- AP2 on one sample in exact arithmetic (R87, R88). -/
def ap2Exact (c3 c2 x : R) (d : R × R) : R × (R × R) :=
  (ap2Alg (exactArith R) c3 c2 x d.1 d.2).pair

/-- DCBLK on one sample in exact arithmetic (R91, R92). -/
def dcblkExact (b x : R) (d : R × R) : R × (R × R) :=
  (dcblkAlg (exactArith R) b x d.1 d.2).pair

/-- `y` is the response to `x` of the transfer function `num / den` in the indeterminate z⁻¹:
`Y · den = num · X` as formal power series. -/
def HasTransfer (x y : Nat → R) (num den : PowerSeries R) : Prop :=
  PowerSeries.mk y * den = num * PowerSeries.mk x

end Sys2Proof.Machine
end

