-- ==== Sys2Proof/Safety.lean ====
section
/-! DEFINITION. Runs and what is observed of them (R123), the spec's own strict model (R31), and the invariants claims use. -/

namespace Sys2Proof.Machine

/-- A host access as a request of one agent. -/
def hostRequest (agent : Nat) (a : Access) : Request := { agent := agent, act := .access a }

/-- The same access is a bus error (R95), in the words of R36, R37 and R38. -/
def badAccess (a : Access) : Prop :=
  a.width ≠ .w32 ∨ a.off.toNat % 4 ≠ 0 ∨ 0x2C ≤ a.off.toNat

/-- A step on a platform whose host goes on after a bus error response (R95): the access changes
nothing, its event is recorded, and the port goes on with the next request. -/
def runOn (s : State) : State :=
  match step s with
  | .next t => t
  | .fault (.busError off) =>
    { s with port := s.port.tail, events := s.events ++ [.busError off] }
  | .fault (.uninit _) => s
  | .refused _ => s

/-- `n` such steps. -/
def runSteps : Nat → State → State
  | 0, s => s
  | n + 1, s => runSteps n (runOn s)

/-- A run: every access of the port performed, in order (R123). -/
def runAll (s : State) : State := runSteps s.port.length s

/-- The final content of a data register as a run's observation holds it (R123). DESIGN CHOICE (log entry
20): R123 asks for the contents of every register and does not say what stands there for one that holds ⊥,
whose pattern no rule fixes (R31); here nothing does, so that no observation shows the word behind ⊥. -/
def State.observed (s : State) (r : DataReg) : Option Word :=
  if s.isWritten r then some (s.get r) else none

/-- What is observed of a run (R123). -/
structure Observation where
  reads : List Reply
  cmd : Word
  status : Word
  data : List (DataReg × Option Word)
  busError : Bool
  illegal : Bool
  uninit : Bool
  deriving DecidableEq, Repr

def Event.isBusError : Event → Bool
  | .busError _ => true
  | .illegalCommand => false
  | .uninit _ => false

def Event.isUninit : Event → Bool
  | .busError _ => false
  | .illegalCommand => false
  | .uninit _ => true

/-- The observation at a state: the words read, every register of R18 (a data register at ⊥ as
`State.observed` has it, log entry 20), and which events occurred (log entry 10). -/
def observe (s : State) : Observation :=
  { reads := s.replies
    cmd := readWord .cmd s
    status := readWord .status s
    data := dataRegs.map (fun r => (r, s.observed r))
    busError := s.events.any Event.isBusError
    illegal := s.events.contains .illegalCommand
    uninit := s.events.any Event.isUninit }

/-- No read of a register holding ⊥ has occurred: what every result rests on is then a written value
(R31, R113). -/
def noUninit (s : State) : Bool := !s.events.any Event.isUninit

/-- The data registers a request reads, in the order of R98: none if it is a bus error or an illegal
command (R31, R56). -/
def requestReads (q : Request) : List DataReg :=
  match q.act with
  | .platformReset => []
  | .access a =>
    if shapeOk a then
      match regAt a.off, a.dir with
      | none, _ => []
      | some r, .read => readsOf r
      | some .cmd, .write v =>
        match decode v with
        | .ok i => operandsRead i
        | .error _ => []
      | some .status, .write _ => []
      | some (.data _), .write _ => []
    else []

/-- One step of the spec's own model (R31): `fault Uninit(R)` where the request reads a register that
holds ⊥, with none of the request's effect; otherwise the step. -/
def strictStep (s : State) : Host.Outcome State Fault Refusal :=
  match s.port with
  | [] => step s
  | q :: _ =>
    match firstUnwritten (requestReads q) s with
    | some r => .fault (.uninit r)
    | none => step s

/-- `n` strict steps; a run that raised a fault has no final state (R123). -/
def strictRun : Nat → State → Host.Outcome State Fault Refusal
  | 0, s => .next s
  | n + 1, s =>
    match strictStep s with
    | .next t => strictRun n t
    | .fault f => .fault f
    | .refused r => .refused r

/-- The actions of one agent still at the port, in that agent's own order (R44). -/
def ownOrder (agent : Nat) (port : List Request) : List HostAction :=
  (port.filter (fun q => q.agent == agent)).map Request.act

/-- The same machine with its agents renamed (R103). -/
def relabel (f : Nat → Nat) (s : State) : State :=
  { s with
    port := s.port.map (fun q => { q with agent := f q.agent })
    replies := s.replies.map (fun r => { r with agent := f r.agent }) }

/-- A filter instance as its host keeps it (R17, R50): coefficients and delay line. -/
structure Context where
  k0 : Word
  k1 : Word
  k2 : Word
  k3 : Word
  k4 : Word
  dl0 : Word
  dl1 : Word
  deriving DecidableEq, Repr

/-- One sample of one instance by the discipline of R50: the host loads the instance's coefficients and
delay line, writes the sample and the command, and reads the output sample and the delay line back. -/
def contextSequence (agent : Nat) (c : Context) (x : Word) (i : Instr) : List Request :=
  [ hostRequest agent (hostWriteAt 0x18#6 c.k0), hostRequest agent (hostWriteAt 0x1C#6 c.k1),
    hostRequest agent (hostWriteAt 0x20#6 c.k2), hostRequest agent (hostWriteAt 0x24#6 c.k3),
    hostRequest agent (hostWriteAt 0x28#6 c.k4), hostRequest agent (hostWriteAt 0x10#6 c.dl0),
    hostRequest agent (hostWriteAt 0x14#6 c.dl1), hostRequest agent (hostWriteAt 0x08#6 x),
    hostRequest agent (hostWriteAt 0x00#6 (encode i)), hostRequest agent (hostReadAt 0x0C#6),
    hostRequest agent (hostReadAt 0x10#6), hostRequest agent (hostReadAt 0x14#6) ]

/-- Bit-equal, or both some quiet NaN: equality but for the draws of R72. -/
def sameUpToNaN (a b : Word) : Prop := a = b ∨ (isQNaN a = true ∧ isQNaN b = true)

/-- The same machine but for the words behind ⊥: whatever the data registers that hold no value contain
(R31, log entry 1). -/
def sameButUnwritten (s t : State) : Prop :=
  s.illcmd = t.illcmd ∧ s.written = t.written ∧ s.port = t.port ∧ s.replies = t.replies ∧
    s.events = t.events ∧ s.draws = t.draws ∧ ∀ r, s.isWritten r = true → s.get r = t.get r

/-- INVARIANT. While no Uninit has occurred, an output sample rests on operands that had been written:
the three that every command reads (R31, R56). -/
def OutputBacked (s : State) : Prop :=
  noUninit s = true → s.written.yout = true →
    s.written.xin = true ∧ s.written.dl0 = true ∧ s.written.k0 = true

/-- INVARIANT. STATUS.ILLCMD is 1 only if an illegal command word was written (R27, R96). -/
def IllegalRecorded (s : State) : Prop := s.illcmd = true → Event.illegalCommand ∈ s.events

end Sys2Proof.Machine
end

