-- ==== Sys2Proof/Certificates/Slice0/Obligations.lean ====
section
/-! DEFINITION. The statements for the provers. The core has no memory, no program counter and no condition code, so no frame speaks of one. Draw numbers (`d + k`, `draws`) are the model's (log entry 4): they only name free values, and each statement holds whatever they are. -/

open Sys2Proof Sys2Proof.Machine

/-! ### Encoding and decoding -/

/-- R55, R39. Each command's word, as a word and as a little-endian host image, decodes to it. -/
def Obligations.DecodeEncodeRoundTrip : Prop :=
  ∀ i : Instr, decode (encode i) = .ok i ∧ decodeImage (hostImage (encode i)) = .ok i

/-- R55: the four words, and a word is legal exactly when it is one of them. -/
def Obligations.DecodeAcceptsExactlyTheFourWords : Prop :=
  (encode .biquad = 0x00000000#32 ∧ encode .ap1 = 0x00000001#32 ∧ encode .ap2 = 0x00000002#32 ∧
      encode .dcblk = 0x00000003#32) ∧
    ∀ v : Word,
      (∀ i, decode v = .ok i ↔ v = encode i) ∧
      ((∃ i, decode v = .ok i) ↔
        v = 0x00000000#32 ∨ v = 0x00000001#32 ∨ v = 0x00000002#32 ∨ v = 0x00000003#32) ∧
      (legalCommand v = true ↔ ∃ i, decode v = .ok i)

/-- R55, R58: words written out by hand (E1 to E4 of 95_test_vectors.md). -/
def Obligations.SampleCommandWordsDecode : Prop :=
  decode 0b00000000000000000000000000000000#32 = .ok .biquad ∧
    decode 0b00000000000000000000000000000001#32 = .ok .ap1 ∧
    decode 0b00000000000000000000000000000010#32 = .ok .ap2 ∧
    decode 0b00000000000000000000000000000011#32 = .ok .dcblk ∧
    decode 0x00000004#32 = .error (.illegalCommand 0x00000004#32) ∧
    decode 0x00000006#32 = .error (.illegalCommand 0x00000006#32) ∧
    decode 0x80000000#32 = .error (.illegalCommand 0x80000000#32) ∧
    decode 0xFFFFFFFF#32 = .error (.illegalCommand 0xFFFFFFFF#32)

/-- R57, `Execute(v)`: RSVD first, then the case on OP; every word runs a command or is illegal. -/
def Obligations.ExecuteFollowsTheCommandWord : Prop :=
  ∀ (v : Word) (s : State),
    (v.extractLsb' 2 30 ≠ 0#30 → execute v s = .next (illegalCommand s)) ∧
    (v.extractLsb' 2 30 = 0#30 →
      (v.extractLsb' 0 2 = 0#2 → execute v s = exec .biquad s) ∧
      (v.extractLsb' 0 2 = 1#2 → execute v s = exec .ap1 s) ∧
      (v.extractLsb' 0 2 = 2#2 → execute v s = exec .ap2 s) ∧
      (v.extractLsb' 0 2 = 3#2 → execute v s = exec .dcblk s))

/-! ### The step -/

/-- A step whose first request writes the word of a command to CMD runs exactly that command, on the
state with that request off the port; and so does the step after `withFetchWord`. -/
def Obligations.StepRunsTheDecodedCommand : Prop :=
  (∀ (s : State) (agent : Nat) (rest : List Request) (v : Word) (i : Instr),
      s.port = hostRequest agent (hostWriteAt 0x00#6 v) :: rest → decode v = .ok i →
        step s = exec i { s with port := rest }) ∧
    ∀ (s : State) (nbits w : Nat) (i : Instr), decodeTableWord nbits w = some i →
      step (s.withFetchWord nbits w) = exec i s

/-- R28: the core is idle where no request waits. -/
def Obligations.IdleCoreKeepsItsState : Prop :=
  ∀ s : State, s.port = [] → step s = .next s

/-! ### What each command computes, and that it completes from every state -/

/-- R79: BIQUAD answers a next state from every state, with the output sample and the delay line that the
rule's pseudocode gives. -/
def Obligations.BiquadResult : Prop :=
  ∀ s : State, ∃ t : State, exec .biquad s = .next t ∧
    let d := s.draws
    let y := fadd (d + 1) (fmul (d + 0) s.k2 s.xin) s.dl0
    t.yout = y ∧
    t.dl0 = fadd (d + 5) (fsub (d + 4) (fmul (d + 2) s.k3 s.xin) (fmul (d + 3) s.k0 y)) s.dl1 ∧
    t.dl1 = fsub (d + 8) (fmul (d + 6) s.k4 s.xin) (fmul (d + 7) s.k1 y)

/-- R83: AP1 answers a next state from every state, with the rule's output sample and DL0, and DL1 as it
was. -/
def Obligations.Ap1Result : Prop :=
  ∀ s : State, ∃ t : State, exec .ap1 s = .next t ∧
    let d := s.draws
    let m := fmul (d + 1) (fsub (d + 0) s.xin s.dl0) s.k0
    t.yout = fadd (d + 3) m s.dl0 ∧ t.dl0 = fadd (d + 2) s.xin m ∧ t.dl1 = s.dl1

/-- R87: AP2 answers a next state from every state; DL1 takes the bits of the old DL0. -/
def Obligations.Ap2Result : Prop :=
  ∀ s : State, ∃ u : State, exec .ap2 s = .next u ∧
    let d := s.draws
    let t := fadd (d + 3) (fmul (d + 1) s.k0 (fadd (d + 0) s.xin s.dl1)) (fmul (d + 2) s.k1 s.dl0)
    u.yout = fadd (d + 4) t s.dl1 ∧ u.dl0 = fsub (d + 5) s.xin t ∧ u.dl1 = s.dl0

/-- R91: DCBLK answers a next state from every state; after it DL0 holds the bits of XIN, and YOUT and
DL1 hold the same 32 bits. -/
def Obligations.DcblkResult : Prop :=
  ∀ s : State, ∃ t : State, exec .dcblk s = .next t ∧
    let d := s.draws
    t.yout = fadd (d + 2) (fsub (d + 0) s.xin s.dl0) (fmul (d + 1) s.k0 s.dl1) ∧
    t.dl0 = s.xin ∧ t.dl1 = t.yout

/-! ### Frames (R56) -/

/-- The frame of BIQUAD, AP2 and DCBLK: XIN, K0..K4, STATUS, the marks of registers they do not write, the
port and the replies are unchanged; the registers they write hold a value from then on; the events grow by
at most an Uninit of an operand of R56's reads column that held ⊥ (the record is log entry 2). -/
def Obligations.BiquadAp2DcblkFrame : Prop :=
  ∀ (i : Instr) (reads : List DataReg) (s t : State),
    (i, reads) ∈ [(Instr.biquad, [DataReg.xin, .dl0, .dl1, .k0, .k1, .k2, .k3, .k4]),
      (.ap2, [.xin, .dl0, .dl1, .k0, .k1]), (.dcblk, [.xin, .dl0, .dl1, .k0])] →
    exec i s = .next t →
    t.xin = s.xin ∧ t.k0 = s.k0 ∧ t.k1 = s.k1 ∧ t.k2 = s.k2 ∧ t.k3 = s.k3 ∧ t.k4 = s.k4 ∧
    t.illcmd = s.illcmd ∧ t.port = s.port ∧ t.replies = s.replies ∧
    t.written = { s.written with yout := true, dl0 := true, dl1 := true } ∧
    (t.events = s.events ∨
      ∃ r ∈ reads, s.isWritten r = false ∧ t.events = s.events ++ [.uninit r])

/-- The frame of AP1: as above, and DL1 and its mark are unchanged too. -/
def Obligations.Ap1Frame : Prop :=
  ∀ s t : State, exec .ap1 s = .next t →
    t.xin = s.xin ∧ t.dl1 = s.dl1 ∧ t.k0 = s.k0 ∧ t.k1 = s.k1 ∧ t.k2 = s.k2 ∧ t.k3 = s.k3 ∧
    t.k4 = s.k4 ∧ t.illcmd = s.illcmd ∧ t.port = s.port ∧ t.replies = s.replies ∧
    t.written = { s.written with yout := true, dl0 := true } ∧
    (t.events = s.events ∨
      ∃ r, (r = .xin ∨ r = .dl0 ∨ r = .k0) ∧ s.isWritten r = false ∧
        t.events = s.events ++ [.uninit r])

/-! ### Determinism -/

/-- R77, R56: two runs of one command on states that agree on the registers of R56's reads column, and on
nothing else, agree on every register it writes but for which quiet NaN was drawn. -/
def Obligations.ResultsDependOnlyOnOperands : Prop :=
  ∀ (i : Instr) (s₁ s₂ t₁ t₂ : State),
    s₁.xin = s₂.xin → s₁.dl0 = s₂.dl0 → s₁.k0 = s₂.k0 →
    (i ≠ .ap1 → s₁.dl1 = s₂.dl1) →
    (i = .biquad ∨ i = .ap2 → s₁.k1 = s₂.k1) →
    (i = .biquad → s₁.k2 = s₂.k2 ∧ s₁.k3 = s₂.k3 ∧ s₁.k4 = s₂.k4) →
    exec i s₁ = .next t₁ → exec i s₂ = .next t₂ →
    sameUpToNaN t₁.yout t₂.yout ∧ sameUpToNaN t₁.dl0 t₂.dl0 ∧
      (i ≠ .ap1 → sameUpToNaN t₁.dl1 t₂.dl1)

/-! ### Numbers -/

/-- R66, R68, R72: a NaN operand, quiet or signalling, gives a quiet NaN; and no operation gives a
signalling NaN from operands that are no NaN. -/
def Obligations.NaNOperandsGiveQuietNaNs : Prop :=
  ∀ (d : Nat) (a b : Word),
    (isNaN a = true ∨ isNaN b = true →
      isQNaN (fadd d a b) = true ∧ isQNaN (fsub d a b) = true ∧ isQNaN (fmul d a b) = true) ∧
    (isNaN (fadd d a b) = true → isQNaN (fadd d a b) = true) ∧
    (isNaN (fsub d a b) = true → isQNaN (fsub d a b) = true) ∧
    (isNaN (fmul d a b) = true → isQNaN (fmul d a b) = true)

/-- R66, R71: a finite `fadd` is the binary32 value nearest to the exact sum (in units of 2^-149), and on a
tie the one whose last fraction bit is 0. -/
def Obligations.AdditionIsCorrectlyRounded : Prop :=
  ∀ (d : Nat) (a b w : Word),
    isFinite a = true → isFinite b = true → isFinite (fadd d a b) = true → isFinite w = true →
    |valOf (fadd d a b) - (valOf a + valOf b)| ≤ |valOf w - (valOf a + valOf b)| ∧
    (|valOf w - (valOf a + valOf b)| = |valOf (fadd d a b) - (valOf a + valOf b)| →
      valOf w ≠ valOf (fadd d a b) → (fadd d a b).getLsbD 0 = false)

/-- R68, R71: the same of `fmul` and the exact product (in units of 2^-298). -/
def Obligations.MultiplicationIsCorrectlyRounded : Prop :=
  ∀ (d : Nat) (a b w : Word),
    isFinite a = true → isFinite b = true → isFinite (fmul d a b) = true → isFinite w = true →
    |valOf (fmul d a b) * 2 ^ 149 - valOf a * valOf b| ≤ |valOf w * 2 ^ 149 - valOf a * valOf b| ∧
    (|valOf w * 2 ^ 149 - valOf a * valOf b| = |valOf (fmul d a b) * 2 ^ 149 - valOf a * valOf b| →
      valOf w ≠ valOf (fmul d a b) → (fmul d a b).getLsbD 0 = false)

/-- R69: a result of finite operands is the infinity of the exact result's sign exactly where the exact
magnitude is at least 2^128 − 2^103, and is finite otherwise. -/
def Obligations.OverflowExactlyFromTheHalfwayPoint : Prop :=
  ∀ (d : Nat) (a b : Word), isFinite a = true → isFinite b = true →
    (2 ^ 277 - 2 ^ 252 ≤ |valOf a + valOf b| →
      fadd d a b = infWord (decide (valOf a + valOf b < 0))) ∧
    (|valOf a + valOf b| < 2 ^ 277 - 2 ^ 252 → isFinite (fadd d a b) = true) ∧
    ((2 ^ 277 - 2 ^ 252) * 2 ^ 149 ≤ |valOf a * valOf b| →
      fmul d a b = infWord (decide (valOf a * valOf b < 0))) ∧
    (|valOf a * valOf b| < (2 ^ 277 - 2 ^ 252) * 2 ^ 149 → isFinite (fmul d a b) = true)

/-- R66, R68, R69, R74: the signs. An exact zero sum is −0 only for two zeros of sign minus; a result whose
exact value is not zero keeps its sign, a zero by underflow included; a product's sign is the XOR. -/
def Obligations.SignsOfFiniteResults : Prop :=
  ∀ (d : Nat) (a b : Word), isFinite a = true → isFinite b = true →
    (valOf a + valOf b = 0 →
      fadd d a b = if isZero a = true ∧ signOf a = true ∧ signOf b = true then 0x80000000#32
        else 0x00000000#32) ∧
    (valOf a + valOf b ≠ 0 → signOf (fadd d a b) = decide (valOf a + valOf b < 0)) ∧
    signOf (fmul d a b) = (signOf a != signOf b)

/-- R66, R68: infinities. ∞ + (−∞) and 0 × ∞ are quiet NaNs; otherwise an infinite operand of a sum that is
no NaN is the sum, and an infinity times anything but a zero or a NaN is the signed infinity. -/
def Obligations.InfinityArithmetic : Prop :=
  ∀ (d : Nat) (a b : Word), isInf a = true →
    (isInf b = true → signOf a ≠ signOf b →
      isQNaN (fadd d a b) = true ∧ isQNaN (fadd d b a) = true) ∧
    (isInf b = true → signOf a = signOf b → fadd d a b = a ∧ fadd d b a = a) ∧
    (isFinite b = true → fadd d a b = a ∧ fadd d b a = a) ∧
    (isZero b = true → isQNaN (fmul d a b) = true ∧ isQNaN (fmul d b a) = true) ∧
    (isZero b = false → isNaN b = false →
      fmul d a b = infWord (signOf a != signOf b) ∧ fmul d b a = infWord (signOf a != signOf b))

/-- R67: `fsub(a, b)` is `fadd(a, neg(b))`, where `neg` flips bit 31, with the rule's four consequences. -/
def Obligations.SubtractionIsAdditionOfTheNegation : Prop :=
  (∀ (d : Nat) (a b : Word),
      fsub d a b = fadd d a (neg b) ∧
      (∀ k, (neg b).getLsbD k = if k = 31 then !b.getLsbD k else b.getLsbD k) ∧
      (isFinite a = true → fsub d a a = 0x00000000#32) ∧
      (isInf a = true → isQNaN (fsub d a a) = true)) ∧
    ∀ d : Nat,
      fsub d 0x00000000#32 0x00000000#32 = 0x00000000#32 ∧
      fsub d 0x80000000#32 0x00000000#32 = 0x80000000#32

/-! ### Filter properties the source requires -/

/-- R81: with the identity coefficients, a finite input and a zero delay line, y == x under IEEE equality
and the delay line stays zero. -/
def Obligations.BiquadIdentityPassthrough : Prop :=
  ∀ s : State,
    s.k0 = 0x00000000#32 → s.k1 = 0x00000000#32 → s.k2 = 0x3F800000#32 → s.k3 = 0x00000000#32 →
    s.k4 = 0x00000000#32 → isZero s.dl0 = true → isZero s.dl1 = true → isFinite s.xin = true →
    ∃ t : State, exec .biquad s = .next t ∧ ieeeEq t.yout s.xin = true ∧ isZero t.dl0 = true ∧
      isZero t.dl1 = true

/-- R81: where the identity ends. From a delay line of +0, x = −0 gives y = +0 and DL1 = −0; an infinite x
gives y = x but quiet NaNs in the delay line; a NaN x gives quiet NaNs throughout, and y == x is false. -/
def Obligations.BiquadIdentityLimits : Prop :=
  ∀ s : State,
    s.k0 = 0x00000000#32 → s.k1 = 0x00000000#32 → s.k2 = 0x3F800000#32 → s.k3 = 0x00000000#32 →
    s.k4 = 0x00000000#32 → s.dl0 = 0x00000000#32 → s.dl1 = 0x00000000#32 →
    ∃ t : State, exec .biquad s = .next t ∧
      (s.xin = 0x80000000#32 →
        t.yout = 0x00000000#32 ∧ t.dl0 = 0x00000000#32 ∧ t.dl1 = 0x80000000#32) ∧
      (isInf s.xin = true → t.yout = s.xin ∧ isQNaN t.dl0 = true ∧ isQNaN t.dl1 = true) ∧
      (isNaN s.xin = true → isQNaN t.yout = true ∧ isQNaN t.dl0 = true ∧ isQNaN t.dl1 = true ∧
        ieeeEq t.yout s.xin = false)

/-- R79 (corner cases): with x = +0, a delay line of +0 and finite coefficients, y = +0 and DL0 = +0, and
DL1 is −0 exactly when b2 has its sign bit set and a1 has not, else +0. -/
def Obligations.BiquadZeroSigns : Prop :=
  ∀ s : State,
    s.xin = 0x00000000#32 → s.dl0 = 0x00000000#32 → s.dl1 = 0x00000000#32 →
    isFinite s.k0 = true → isFinite s.k1 = true → isFinite s.k2 = true → isFinite s.k3 = true →
    isFinite s.k4 = true →
    ∃ t : State, exec .biquad s = .next t ∧ t.yout = 0x00000000#32 ∧ t.dl0 = 0x00000000#32 ∧
      t.dl1 = if signOf s.k4 = true ∧ signOf s.k1 = false then 0x80000000#32 else 0x00000000#32

/-- R81, R85, R89, R93: the zero-input, zero-state fixed point of all four kinds, under IEEE equality, with
the coefficients that the command reads finite (R56): AP1 asks nothing of DL1, and keeps it. -/
def Obligations.ZeroInputZeroStateFixedPoint : Prop :=
  ∀ (i : Instr) (s : State),
    isZero s.xin = true → isZero s.dl0 = true → isFinite s.k0 = true →
    (i ≠ .ap1 → isZero s.dl1 = true) →
    (i = .biquad ∨ i = .ap2 → isFinite s.k1 = true) →
    (i = .biquad → isFinite s.k2 = true ∧ isFinite s.k3 = true ∧ isFinite s.k4 = true) →
    ∃ t : State, exec i s = .next t ∧ isZero t.yout = true ∧ isZero t.dl0 = true ∧
      (i ≠ .ap1 → isZero t.dl1 = true) ∧ (i = .ap1 → t.dl1 = s.dl1)

/-! ### Exact arithmetic -/

/-- R80: in exact arithmetic BIQUAD realises (b0 + b1·z⁻¹ + b2·z⁻²) / (1 + a0·z⁻¹ + a1·z⁻²)
(exactness as any commutative ring: log entry 17). -/
def Obligations.BiquadTransferFunction : Prop :=
  ∀ (R : Type) [CommRing R] (c : BiquadCoef R) (x : Nat → R),
    HasTransfer x (outputAt (biquadExact c) x (0, 0))
      (PowerSeries.C c.b0 + PowerSeries.C c.b1 * PowerSeries.X +
        PowerSeries.C c.b2 * PowerSeries.X ^ 2)
      (1 + PowerSeries.C c.a0 * PowerSeries.X + PowerSeries.C c.a1 * PowerSeries.X ^ 2)

/-- R84: in exact arithmetic (log entry 17) AP1 realises (b + z⁻¹)/(1 + b·z⁻¹) (90_conflicts.md C1). -/
def Obligations.Ap1TransferFunction : Prop :=
  ∀ (R : Type) [CommRing R] (b : R) (x : Nat → R),
    HasTransfer x (outputAt (ap1Exact b) x 0)
      (PowerSeries.C b + PowerSeries.X) (1 + PowerSeries.C b * PowerSeries.X)

/-- R88: in exact arithmetic (log entry 17) AP2 realises (c3 + c2·z⁻¹ + z⁻²)/(1 + c2·z⁻¹ + c3·z⁻²). -/
def Obligations.Ap2TransferFunction : Prop :=
  ∀ (R : Type) [CommRing R] (c3 c2 : R) (x : Nat → R),
    HasTransfer x (outputAt (ap2Exact c3 c2) x (0, 0))
      (PowerSeries.C c3 + PowerSeries.C c2 * PowerSeries.X + PowerSeries.X ^ 2)
      (1 + PowerSeries.C c2 * PowerSeries.X + PowerSeries.C c3 * PowerSeries.X ^ 2)

/-- R92: in exact arithmetic (log entry 17) DCBLK realises (1 − z⁻¹)/(1 − b·z⁻¹). -/
def Obligations.DcblkTransferFunction : Prop :=
  ∀ (R : Type) [CommRing R] (b : R) (x : Nat → R),
    HasTransfer x (outputAt (dcblkExact b) x (0, 0))
      (1 - PowerSeries.X) (1 - PowerSeries.C b * PowerSeries.X)

/-- R92: the step response of DCBLK from a zero state is exactly y[n] = bⁿ. That exact arithmetic is any
commutative ring is the model's reading (log entry 17). -/
def Obligations.DcblkStepResponse : Prop :=
  ∀ (R : Type) [CommRing R] (b : R) (n : Nat),
    outputAt (dcblkExact b) (fun _ => 1) (0, 0) n = b ^ n

/-! ### Host accesses -/

/-- R95, R36, R37, R38: a host access is a bus error exactly when its width is not 32 bits, it is
misaligned, or its offset is reserved. It is a fault of the host's run; the core's state does not change,
as a run that goes on shows; and nothing else stops a step. The model's choices: `runOn`, which takes the
request off the port, records the event and goes on, is log entry 6; that an access which reads a register
at ⊥ completes is log entry 2. -/
def Obligations.BusErrorExactlyOnBadAccesses : Prop :=
  (∀ (s : State) (agent : Nat) (a : Access) (rest : List Request),
      s.port = hostRequest agent a :: rest →
      (badAccess a →
        step s = .fault (.busError a.off) ∧
        runOn s = { s with port := rest, events := s.events ++ [.busError a.off] }) ∧
      (¬ badAccess a → ∃ t, step s = .next t)) ∧
    ∀ s : State,
      (∀ r, step s ≠ .refused r) ∧
      ∀ f, step s = .fault f →
        ∃ agent a rest, s.port = hostRequest agent a :: rest ∧ badAccess a ∧ f = .busError a.off

/-- R40: what `HostRead` returns at every offset, and that it has no side effect. The model's Uninit is a
fault of the strict step and an event of the step, which answers the content: the model's choice (log
entry 2). -/
def Obligations.HostReadReturnsTheRegister : Prop :=
  ∀ (s : State) (agent : Nat) (rest : List Request),
    let req := fun (off : BitVec 6) => { s with port := hostRequest agent (hostReadAt off) :: rest }
    let back := fun (w : Word) =>
      { s with port := rest, replies := s.replies ++ [{ agent := agent, word := w }] }
    step (req 0x00#6) = .next (back 0x00000000#32) ∧
    step (req 0x04#6) = .next (back (if s.illcmd then 0x00000001#32 else 0x00000000#32)) ∧
    (s.written.xin = true → step (req 0x08#6) = .next (back s.xin)) ∧
    (s.written.yout = true → step (req 0x0C#6) = .next (back s.yout)) ∧
    (s.written.dl0 = true → step (req 0x10#6) = .next (back s.dl0)) ∧
    (s.written.dl1 = true → step (req 0x14#6) = .next (back s.dl1)) ∧
    (s.written.k0 = true → step (req 0x18#6) = .next (back s.k0)) ∧
    (s.written.k1 = true → step (req 0x1C#6) = .next (back s.k1)) ∧
    (s.written.k2 = true → step (req 0x20#6) = .next (back s.k2)) ∧
    (s.written.k3 = true → step (req 0x24#6) = .next (back s.k3)) ∧
    (s.written.k4 = true → step (req 0x28#6) = .next (back s.k4)) ∧
    (∀ r, s.isWritten r = false →
      step (req (offsetOf (.data r))) = .next ((back (s.get r)).note (.uninit r)) ∧
      strictStep (req (offsetOf (.data r))) = .fault (.uninit r)) ∧
    (∀ off, off.toNat % 4 ≠ 0 ∨ 0x2C ≤ off.toNat → step (req off) = .fault (.busError off)) ∧
    (∀ (off : BitVec 6) (w : Width), w ≠ .w32 →
      step { s with port := hostRequest agent { width := w, off := off, dir := .read } :: rest } =
        .fault (.busError off)) ∧
    (∀ off t, step (req off) = .next t →
      (∀ r, t.get r = s.get r ∧ t.isWritten r = s.isWritten r) ∧ t.illcmd = s.illcmd)

/-- R41: what `HostWrite` does at every offset. -/
def Obligations.HostWriteEffects : Prop :=
  ∀ (s : State) (agent : Nat) (rest : List Request) (v : Word),
    let req := fun (off : BitVec 6) =>
      { s with port := hostRequest agent (hostWriteAt off v) :: rest }
    let after := { s with port := rest }
    step (req 0x00#6) = execute v after ∧
    step (req 0x04#6) = .next (if v.getLsbD 0 then { after with illcmd := false } else after) ∧
    step (req 0x08#6) =
      .next { after with xin := v, written := { s.written with xin := true } } ∧
    step (req 0x0C#6) = .next after ∧
    step (req 0x10#6) =
      .next { after with dl0 := v, written := { s.written with dl0 := true } } ∧
    step (req 0x14#6) =
      .next { after with dl1 := v, written := { s.written with dl1 := true } } ∧
    step (req 0x18#6) = .next { after with k0 := v, written := { s.written with k0 := true } } ∧
    step (req 0x1C#6) = .next { after with k1 := v, written := { s.written with k1 := true } } ∧
    step (req 0x20#6) = .next { after with k2 := v, written := { s.written with k2 := true } } ∧
    step (req 0x24#6) = .next { after with k3 := v, written := { s.written with k3 := true } } ∧
    step (req 0x28#6) = .next { after with k4 := v, written := { s.written with k4 := true } } ∧
    (∀ off, off.toNat % 4 ≠ 0 ∨ 0x2C ≤ off.toNat → step (req off) = .fault (.busError off)) ∧
    (∀ (off : BitVec 6) (w : Width), w ≠ .w32 →
      step { s with port := hostRequest agent { width := w, off := off, dir := .write v } :: rest } =
        .fault (.busError off))

/-- R58: a word with RSVD ≠ 0, and no other, is illegal: whatever the registers hold, written or not, the
only register it writes is STATUS.ILLCMD, and no filter runs. The record of the event in `events` is the
model's (log entry 10; R97 records it in STATUS bit 0 only). -/
def Obligations.IllegalCommandOnlySetsIllcmd : Prop :=
  ∀ v : Word,
    (v.extractLsb' 2 30 ≠ 0#30 ↔ ¬ (v = 0x00000000#32 ∨ v = 0x00000001#32 ∨ v = 0x00000002#32 ∨
      v = 0x00000003#32)) ∧
    (v.extractLsb' 2 30 ≠ 0#30 →
      ∀ (s : State) (agent : Nat) (rest : List Request),
        s.port = hostRequest agent (hostWriteAt 0x00#6 v) :: rest →
        step s = .next { s with
          port := rest, illcmd := true, events := s.events ++ [.illegalCommand] } ∧
        strictStep s = step s)

/-- R96, R101: ILLCMD rises only by an illegal command word, and falls only by a write of STATUS with bit 0
= 1 or a platform reset. -/
def Obligations.IllcmdIsSticky : Prop :=
  ∀ s t : State, step s = .next t →
    (s.illcmd = false → t.illcmd = true →
      ∃ agent v rest, s.port = hostRequest agent (hostWriteAt 0x00#6 v) :: rest ∧
        v.extractLsb' 2 30 ≠ 0#30) ∧
    (s.illcmd = true → t.illcmd = false →
      ∃ agent rest, s.port = { agent := agent, act := .platformReset } :: rest ∨
        ∃ v, s.port = hostRequest agent (hostWriteAt 0x04#6 v) :: rest ∧ v.getLsbD 0 = true)

/-- R20, R21, R23, R25, R42, over every step: a data register changes only by a platform reset, by a host
write of that register (never YOUT), or, for YOUT, DL0 and DL1 alone, by a legal command (never DL1 by
AP1). -/
def Obligations.RegistersChangeOnlyByTheirWriters : Prop :=
  ∀ (s t : State) (r : DataReg), step s = .next t → t.get r ≠ s.get r →
    ∃ agent rest,
      s.port = { agent := agent, act := .platformReset } :: rest ∨
      (r ≠ .yout ∧ ∃ v, s.port = hostRequest agent (hostWriteAt (offsetOf (.data r)) v) :: rest) ∨
      ((r = .yout ∨ r = .dl0 ∨ r = .dl1) ∧ ∃ v i,
        s.port = hostRequest agent (hostWriteAt 0x00#6 v) :: rest ∧ decode v = .ok i ∧
          (r = .dl1 → i ≠ .ap1))

/-- R19: a word written to a data register but YOUT comes back unchanged from the next read of it, whoever
reads. -/
def Obligations.WriteThenReadReturnsTheWord : Prop :=
  ∀ (s : State) (writer reader : Nat) (r : DataReg) (v : Word) (rest : List Request), r ≠ .yout →
    s.port = hostRequest writer (hostWriteAt (offsetOf (.data r)) v) ::
      hostRequest reader (hostReadAt (offsetOf (.data r))) :: rest →
    (runSteps 2 s).replies = s.replies ++ [{ agent := reader, word := v }] ∧
      (runSteps 2 s).events = s.events

/-- R43, R44, R121: reads of YOUT, DL0 and DL1 right after a command return what that command wrote. -/
def Obligations.CommandThenReadsReturnItsResults : Prop :=
  ∀ (s t : State) (writer reader : Nat) (v : Word) (i : Instr) (rest : List Request),
    decode v = .ok i → exec i s = .next t →
    s.port = hostRequest writer (hostWriteAt 0x00#6 v) :: hostRequest reader (hostReadAt 0x0C#6) ::
      hostRequest reader (hostReadAt 0x10#6) :: hostRequest reader (hostReadAt 0x14#6) :: rest →
    (runSteps 4 s).replies = s.replies ++
      [{ agent := reader, word := t.yout }, { agent := reader, word := t.dl0 },
        { agent := reader, word := t.dl1 }]

/-! ### Reset and unwritten registers -/

/-- R33: the state reset leaves: STATUS and CMD read 0, and every data register holds ⊥. (The zero contents
behind the ⊥ are the model's choice, log entry 1, and not stated.) -/
def Obligations.ResetState : Prop :=
  readWord .cmd State.reset = 0x00000000#32 ∧ readWord .status State.reset = 0x00000000#32 ∧
    State.reset.illcmd = false ∧ ∀ r, State.reset.isWritten r = false

/-- R112, R111: a platform reset within a run leaves STATUS 0 and every data register at ⊥, and runs no
command. (That the rest of the run, its port, replies and events, stays is the model's, log entry 7.) -/
def Obligations.PlatformResetLeavesRegistersUnwritten : Prop :=
  ∀ (s : State) (agent : Nat) (rest : List Request),
    s.port = { agent := agent, act := .platformReset } :: rest →
    ∃ t, step s = .next t ∧ readWord .status t = 0x00000000#32 ∧ (∀ r, t.isWritten r = false) ∧
      t.port = rest ∧ t.replies = s.replies ∧ t.events = s.events

/-- R31, R113: a command whose operands have all been written is the same for the step and the spec's own
strict model, and records nothing; with an operand at ⊥ the strict model faults Uninit on such an operand
with none of the command's writes, and the step records the same name (log entries 2 and 9). The operands
are R56's reads column, written out, and `operandsRead` holds exactly them. -/
def Obligations.StrictCommandFaultsOnUnwrittenOperands : Prop :=
  ∀ (i : Instr) (reads : List DataReg),
    (i, reads) ∈ [(Instr.biquad, [DataReg.xin, .dl0, .dl1, .k0, .k1, .k2, .k3, .k4]),
      (.ap1, [.xin, .dl0, .k0]), (.ap2, [.xin, .dl0, .dl1, .k0, .k1]),
      (.dcblk, [.xin, .dl0, .dl1, .k0])] →
    (∀ r, r ∈ operandsRead i ↔ r ∈ reads) ∧
    ∀ (s : State) (agent : Nat) (rest : List Request),
      s.port = hostRequest agent (hostWriteAt 0x00#6 (encode i)) :: rest →
      ((∀ r ∈ reads, s.isWritten r = true) →
        strictStep s = step s ∧ ∃ t, step s = .next t ∧ t.events = s.events) ∧
      ((∃ r ∈ reads, s.isWritten r = false) →
        ∃ r ∈ reads, s.isWritten r = false ∧ strictStep s = .fault (.uninit r) ∧
          ∃ t, step s = .next t ∧ t.events = s.events ++ [.uninit r])

/-- R98: at most one event per host access, in the rule's order: width or alignment, reserved offset, RSVD,
Uninit. `operandsRead` is R56's reads column (StrictCommandFaultsOnUnwrittenOperands writes it out). The
model's choices: that an Uninit stops the strict step only is log entry 2, the record in `events` is log
entry 10. -/
def Obligations.EventPriority : Prop :=
  ∀ (s : State) (agent : Nat) (a : Access) (rest : List Request),
    s.port = hostRequest agent a :: rest →
    (a.width ≠ .w32 ∨ a.off.toNat % 4 ≠ 0 → strictStep s = .fault (.busError a.off)) ∧
    (a.width = .w32 → a.off.toNat % 4 = 0 → 0x2C ≤ a.off.toNat →
      strictStep s = .fault (.busError a.off)) ∧
    (∀ v, a = hostWriteAt 0x00#6 v → v.extractLsb' 2 30 ≠ 0#30 →
      strictStep s = .next { s with
        port := rest, illcmd := true, events := s.events ++ [.illegalCommand] }) ∧
    (∀ v i, a = hostWriteAt 0x00#6 v → decode v = .ok i →
      ((∃ r ∈ operandsRead i, s.isWritten r = false) →
        ∃ r ∈ operandsRead i, s.isWritten r = false ∧ strictStep s = .fault (.uninit r)) ∧
      ((∀ r ∈ operandsRead i, s.isWritten r = true) →
        strictStep s = exec i { s with port := rest })) ∧
    (∀ t, step s = .next t → t.events = s.events ∨ ∃ e, t.events = s.events ++ [e])

/-! ### Invariants of every step -/

/-- R31, R56: while no Uninit has occurred, an output sample rests on written operands; every step keeps
it. -/
def Obligations.StepKeepsOutputBacked : Prop :=
  ∀ s t : State, OutputBacked s → step s = .next t → OutputBacked t

/-- R27, R96: STATUS.ILLCMD is 1 only if an illegal command word has been written; every step keeps it. -/
def Obligations.StepKeepsIllegalRecorded : Prop :=
  ∀ s t : State, IllegalRecorded s → step s = .next t → IllegalRecorded t

/-- Both invariants hold right after reset. -/
def Obligations.ResetMeetsTheInvariants : Prop :=
  OutputBacked State.reset ∧ IllegalRecorded State.reset

/-! ### Order, agents, instances -/

/-- R44: accesses take effect one at a time in port order: a step takes exactly the first request off the
port, adds at most one reply, to that request's agent, and keeps every agent's own order. -/
def Obligations.PortOrderIsKept : Prop :=
  ∀ (s t : State) (q : Request) (rest : List Request), s.port = q :: rest → step s = .next t →
    t.port = rest ∧
    (t.replies = s.replies ∨ ∃ w, t.replies = s.replies ++ [{ agent := q.agent, word := w }]) ∧
    ∀ agent, ownOrder agent s.port =
      (if q.agent = agent then [q.act] else []) ++ ownOrder agent t.port

/-- R103: the core distinguishes no host agent: renaming the agents renames them in the replies and
changes nothing else. -/
def Obligations.AgentsAreNotDistinguished : Prop :=
  ∀ (f : Nat → Nat) (s : State),
    step (relabel f s) =
      match step s with
      | .next t => .next (relabel f t)
      | .fault x => .fault x
      | .refused x => .refused x

/-- R50, R51, R118: by the load, command and save discipline an instance is isolated: from any two states,
whatever other instances left in the registers, the output sample and the delay line read back agree but for
which quiet NaN was drawn. -/
def Obligations.ContextSwitchIsolatesInstances : Prop :=
  ∀ (i : Instr) (c : Context) (x : Word) (agent : Nat) (s₁ s₂ : State) (rest₁ rest₂ : List Request),
    s₁.port = contextSequence agent c x i ++ rest₁ →
    s₂.port = contextSequence agent c x i ++ rest₂ →
    ∃ y₁ e₁ f₁ y₂ e₂ f₂ : Word,
      (runSteps 12 s₁).replies = s₁.replies ++ [y₁, e₁, f₁].map (fun w => { agent := agent, word := w }) ∧
      (runSteps 12 s₂).replies = s₂.replies ++ [y₂, e₂, f₂].map (fun w => { agent := agent, word := w }) ∧
      sameUpToNaN y₁ y₂ ∧ sameUpToNaN e₁ e₂ ∧ sameUpToNaN f₁ f₂ ∧
      (runSteps 12 s₁).events = s₁.events

/-! ### Address map and host scripts -/

/-- R35, R12: FILT_BASE is a multiple of 0x40, the window's offsets are the addresses FILT_BASE + off, and
an access outside the window never reaches the core. -/
def Obligations.WindowAddressMap : Prop :=
  Config.filtBase % 0x40 = 0 ∧
    (∀ off : BitVec 6, route (Config.filtBase + off.toNat) = some off) ∧
    (∀ addr, addr < Config.filtBase ∨ Config.filtBase + 0x40 ≤ addr → route addr = none) ∧
    (∀ (s : State) (agent addr : Nat) (w : Width) (dir : Dir), route addr = none →
      s.submit agent addr w dir = s) ∧
    ∀ (s : State) (agent : Nat) (off : BitVec 6) (w : Width) (dir : Dir),
      s.submit agent (Config.filtBase + off.toNat) w dir =
        { s with port := s.port ++ [hostRequest agent { width := w, off := off, dir := dir }] }

/-- R61, R15: a decimal is assembled exactly when some finite binary32 value equals it, and then to a
pattern of exactly that value and sign. -/
def Obligations.DecimalsAssembleExactly : Prop :=
  ∀ (negative : Bool) (digits scale : Nat),
    (∀ w, decimalWord negative digits scale = some w →
      isFinite w = true ∧ signOf w = negative ∧ magOf w * 10 ^ scale = digits * 2 ^ 149) ∧
    ((∃ w, isFinite w = true ∧ magOf w * 10 ^ scale = digits * 2 ^ 149) →
      (decimalWord negative digits scale).isSome = true)

/-- R62, R63: the pseudo-instructions as bus transactions. -/
def Obligations.PseudoInstructionTransactions : Prop :=
  ∀ a0 a1 b0 b1 b2 x y : Word,
    let tx := fun (l : Line) => l.expand.map (fun p => (p.transaction []).toOption)
    tx .clrdl = [some (hostWriteAt 0x10#6 0#32), some (hostWriteAt 0x14#6 0#32)] ∧
    tx .clrst = [some (hostWriteAt 0x04#6 1#32)] ∧
    tx (.ldbq (.hex a0) (.hex a1) (.hex b0) (.hex b1) (.hex b2)) =
      [some (hostWriteAt 0x18#6 a0), some (hostWriteAt 0x1C#6 a1), some (hostWriteAt 0x20#6 b0),
        some (hostWriteAt 0x24#6 b1), some (hostWriteAt 0x28#6 b2)] ∧
    tx (.ldap1 (.hex x)) = [some (hostWriteAt 0x18#6 x)] ∧
    tx (.lddc (.hex x)) = [some (hostWriteAt 0x18#6 x)] ∧
    tx (.ldap2 (.hex x) (.hex y)) =
      [some (hostWriteAt 0x18#6 x), some (hostWriteAt 0x1C#6 y)] ∧
    (∀ s0 s1, tx (.save s0 s1) = [some (hostReadAt 0x10#6), some (hostReadAt 0x14#6)]) ∧
    tx (.restore (.hex x) (.hex y)) =
      [some (hostWriteAt 0x10#6 x), some (hostWriteAt 0x14#6 y)] ∧
    (∀ i name, tx (.sample i (.hex x) name) =
      [some (hostWriteAt 0x08#6 x), some (hostWriteAt 0x00#6 (encode i)),
        some (hostReadAt 0x0C#6)]) ∧
    ∀ (n : Nat) (body rest : Script),
      (Script.loop 1 body rest).expand = body.expand ++ rest.expand ∧
      (Script.loop (n + 1) body rest).expand = body.expand ++ (Script.loop n body rest).expand

/-- R62, R49: the script line `STEP <op>, x -> y` runs the command once on the sample `x` and binds `y` to
the output sample that the command wrote. -/
def Obligations.ScriptStepRunsOneSample : Prop :=
  ∀ (i : Instr) (x : Word) (name : String) (agent : Nat) (h : HostRun) (t : State),
    exec i (h.core.set .xin x) = .next t →
    ∃ h', runPrims step agent (Line.sample i (.hex x) name).expand h = .ok h' ∧
      h'.vars.lookup name = some t.yout ∧ h'.core.yout = t.yout ∧ h'.core.dl0 = t.dl0 ∧
      h'.core.dl1 = t.dl1 ∧ h'.core.port = h.core.port

/-- R61: a script that holds an inexact decimal is refused by the assembler, before any access: whatever the
core does with accesses, the run ends in the refusal of one of the script's inexact decimals. Which one is
the model's choice (log entry 15). -/
def Obligations.InexactDecimalsAreRefused : Prop :=
  ∀ (stepBy : State → Host.Outcome State Fault Refusal) (agent : Nat) (p : Script)
    (vars : List (String × Word)) (s : State) (r : RegName) (negative : Bool) (digits scale : Nat),
    Prim.wr r (.decimal negative digits scale) ∈ p.expand → decimalWord negative digits scale = none →
    ∃ r' neg' digits' scale', Prim.wr r' (.decimal neg' digits' scale') ∈ p.expand ∧
      decimalWord neg' digits' scale' = none ∧
      p.run stepBy agent vars s = .error (.inexactDecimal neg' digits' scale')

/-- R31, R123: no strict step and no observation depends on the words behind ⊥: two states that are the same
but for them have the same observation and the same fault, and every strict step keeps them so. What the
observation holds for a register at ⊥ is log entry 20; the words behind ⊥ are log entry 1. -/
def Obligations.UnwrittenContentsNeverShow : Prop :=
  ∀ s₁ s₂ : State, sameButUnwritten s₁ s₂ →
    observe s₁ = observe s₂ ∧
    (∀ f, strictStep s₁ = .fault f → strictStep s₂ = .fault f) ∧
    ∀ t₁, strictStep s₁ = .next t₁ → ∃ t₂, strictStep s₂ = .next t₂ ∧ sameButUnwritten t₁ t₂
end

