-- ==== Sys2Proof/Laws/Decode.lean ====
section
/-! SUPPORT. What the decoder, the encoder and the host images do. -/

namespace Sys2Proof

/-- All a decoding can answer (R57): a command, if RSVD is zero, or IllegalCommand. -/
theorem decode_cases (v : Word) :
    (rsvdField v = 0#30 ∧ decode v = .ok (kindOf (opField v))) ∨
      (rsvdField v ≠ 0#30 ∧ decode v = .error (.illegalCommand v)) := by
  unfold decode
  by_cases h : rsvdField v = 0#30
  · exact .inl ⟨h, by simp [h]⟩
  · exact .inr ⟨h, by simp [h]⟩

@[simp] theorem decodeImage_four (b0 b1 b2 b3 : Byte) :
    decodeImage [b0, b1, b2, b3] = decode (b3 ++ b2 ++ b1 ++ b0) := rfl

/-- A word comes back from its host image (R39). -/
@[simp] theorem wordOfImage_hostImage (w : Word) : wordOfImage (hostImage w) = .ok w := by
  simp only [hostImage, wordOfImage]
  congr 1
  ext i hi
  simp only [BitVec.getElem_append, BitVec.getElem_extractLsb']
  split
  · simp [BitVec.getLsbD_eq_getElem hi]
  · split
    · rw [show 8 + (i - 8) = i by omega]; simp [BitVec.getLsbD_eq_getElem hi]
    · split
      · rw [show 16 + (i - 8 - 8) = i by omega]; simp [BitVec.getLsbD_eq_getElem hi]
      · rw [show 24 + (i - 8 - 8 - 8) = i by omega]; simp [BitVec.getLsbD_eq_getElem hi]

@[simp] theorem decodeImage_hostImage (w : Word) : decodeImage (hostImage w) = decode w := by
  simp [decodeImage, Except.bind]

end Sys2Proof
end

