-- ==== Sys2Proof/Laws/State.lean ====
section
/-! SUPPORT. What every update of State does to every field: no later proof unfolds a record update. -/

namespace Sys2Proof.Machine

variable (s : State) (r q : DataReg) (v y e f : Word) (n agent : Nat) (ev : Event)

/-! ### `State.get` and `State.isWritten` of a named register -/

@[simp] theorem get_xin : s.get .xin = s.xin := rfl
@[simp] theorem get_yout : s.get .yout = s.yout := rfl
@[simp] theorem get_dl0 : s.get .dl0 = s.dl0 := rfl
@[simp] theorem get_dl1 : s.get .dl1 = s.dl1 := rfl
@[simp] theorem get_k0 : s.get .k0 = s.k0 := rfl
@[simp] theorem get_k1 : s.get .k1 = s.k1 := rfl
@[simp] theorem get_k2 : s.get .k2 = s.k2 := rfl
@[simp] theorem get_k3 : s.get .k3 = s.k3 := rfl
@[simp] theorem get_k4 : s.get .k4 = s.k4 := rfl
@[simp] theorem isWritten_xin : s.isWritten .xin = s.written.xin := rfl
@[simp] theorem isWritten_yout : s.isWritten .yout = s.written.yout := rfl
@[simp] theorem isWritten_dl0 : s.isWritten .dl0 = s.written.dl0 := rfl
@[simp] theorem isWritten_dl1 : s.isWritten .dl1 = s.written.dl1 := rfl
@[simp] theorem isWritten_k0 : s.isWritten .k0 = s.written.k0 := rfl
@[simp] theorem isWritten_k1 : s.isWritten .k1 = s.written.k1 := rfl
@[simp] theorem isWritten_k2 : s.isWritten .k2 = s.written.k2 := rfl
@[simp] theorem isWritten_k3 : s.isWritten .k3 = s.written.k3 := rfl
@[simp] theorem isWritten_k4 : s.isWritten .k4 = s.written.k4 := rfl

/-! ### `State.set` -/

@[simp] theorem set_xin : (s.set r v).xin = if r = .xin then v else s.xin := by
  cases r <;> rfl
@[simp] theorem set_yout : (s.set r v).yout = if r = .yout then v else s.yout := by
  cases r <;> rfl
@[simp] theorem set_dl0 : (s.set r v).dl0 = if r = .dl0 then v else s.dl0 := by
  cases r <;> rfl
@[simp] theorem set_dl1 : (s.set r v).dl1 = if r = .dl1 then v else s.dl1 := by
  cases r <;> rfl
@[simp] theorem set_k0 : (s.set r v).k0 = if r = .k0 then v else s.k0 := by
  cases r <;> rfl
@[simp] theorem set_k1 : (s.set r v).k1 = if r = .k1 then v else s.k1 := by
  cases r <;> rfl
@[simp] theorem set_k2 : (s.set r v).k2 = if r = .k2 then v else s.k2 := by
  cases r <;> rfl
@[simp] theorem set_k3 : (s.set r v).k3 = if r = .k3 then v else s.k3 := by
  cases r <;> rfl
@[simp] theorem set_k4 : (s.set r v).k4 = if r = .k4 then v else s.k4 := by
  cases r <;> rfl
@[simp] theorem set_written_xin :
    (s.set r v).written.xin = (decide (r = .xin) || s.written.xin) := by
  cases r <;> rfl
@[simp] theorem set_written_yout :
    (s.set r v).written.yout = (decide (r = .yout) || s.written.yout) := by
  cases r <;> rfl
@[simp] theorem set_written_dl0 :
    (s.set r v).written.dl0 = (decide (r = .dl0) || s.written.dl0) := by
  cases r <;> rfl
@[simp] theorem set_written_dl1 :
    (s.set r v).written.dl1 = (decide (r = .dl1) || s.written.dl1) := by
  cases r <;> rfl
@[simp] theorem set_written_k0 :
    (s.set r v).written.k0 = (decide (r = .k0) || s.written.k0) := by
  cases r <;> rfl
@[simp] theorem set_written_k1 :
    (s.set r v).written.k1 = (decide (r = .k1) || s.written.k1) := by
  cases r <;> rfl
@[simp] theorem set_written_k2 :
    (s.set r v).written.k2 = (decide (r = .k2) || s.written.k2) := by
  cases r <;> rfl
@[simp] theorem set_written_k3 :
    (s.set r v).written.k3 = (decide (r = .k3) || s.written.k3) := by
  cases r <;> rfl
@[simp] theorem set_written_k4 :
    (s.set r v).written.k4 = (decide (r = .k4) || s.written.k4) := by
  cases r <;> rfl
@[simp] theorem set_illcmd : (s.set r v).illcmd = s.illcmd := by cases r <;> rfl
@[simp] theorem set_port : (s.set r v).port = s.port := by cases r <;> rfl
@[simp] theorem set_replies : (s.set r v).replies = s.replies := by cases r <;> rfl
@[simp] theorem set_events : (s.set r v).events = s.events := by cases r <;> rfl
@[simp] theorem set_draws : (s.set r v).draws = s.draws := by cases r <;> rfl

theorem get_set : (s.set r v).get q = if r = q then v else s.get q := by cases q <;> simp

theorem isWritten_set : (s.set r v).isWritten q = (decide (r = q) || s.isWritten q) := by
  cases q <;> simp


/-! ### `State.note` -/

@[simp] theorem note_xin : (s.note ev).xin = s.xin := rfl
@[simp] theorem note_yout : (s.note ev).yout = s.yout := rfl
@[simp] theorem note_dl0 : (s.note ev).dl0 = s.dl0 := rfl
@[simp] theorem note_dl1 : (s.note ev).dl1 = s.dl1 := rfl
@[simp] theorem note_k0 : (s.note ev).k0 = s.k0 := rfl
@[simp] theorem note_k1 : (s.note ev).k1 = s.k1 := rfl
@[simp] theorem note_k2 : (s.note ev).k2 = s.k2 := rfl
@[simp] theorem note_k3 : (s.note ev).k3 = s.k3 := rfl
@[simp] theorem note_k4 : (s.note ev).k4 = s.k4 := rfl
@[simp] theorem note_illcmd : (s.note ev).illcmd = s.illcmd := rfl
@[simp] theorem note_written : (s.note ev).written = s.written := rfl
@[simp] theorem note_port : (s.note ev).port = s.port := rfl
@[simp] theorem note_replies : (s.note ev).replies = s.replies := rfl
@[simp] theorem note_events : (s.note ev).events = s.events ++ [ev] := rfl
@[simp] theorem note_draws : (s.note ev).draws = s.draws := rfl
@[simp] theorem note_get : (s.note ev).get q = s.get q := by cases q <;> rfl
@[simp] theorem note_isWritten : (s.note ev).isWritten q = s.isWritten q := by
  cases q <;> rfl

/-! ### `State.advanceDraws` -/

@[simp] theorem advanceDraws_xin : (s.advanceDraws n).xin = s.xin := rfl
@[simp] theorem advanceDraws_yout : (s.advanceDraws n).yout = s.yout := rfl
@[simp] theorem advanceDraws_dl0 : (s.advanceDraws n).dl0 = s.dl0 := rfl
@[simp] theorem advanceDraws_dl1 : (s.advanceDraws n).dl1 = s.dl1 := rfl
@[simp] theorem advanceDraws_k0 : (s.advanceDraws n).k0 = s.k0 := rfl
@[simp] theorem advanceDraws_k1 : (s.advanceDraws n).k1 = s.k1 := rfl
@[simp] theorem advanceDraws_k2 : (s.advanceDraws n).k2 = s.k2 := rfl
@[simp] theorem advanceDraws_k3 : (s.advanceDraws n).k3 = s.k3 := rfl
@[simp] theorem advanceDraws_k4 : (s.advanceDraws n).k4 = s.k4 := rfl
@[simp] theorem advanceDraws_illcmd : (s.advanceDraws n).illcmd = s.illcmd := rfl
@[simp] theorem advanceDraws_written : (s.advanceDraws n).written = s.written := rfl
@[simp] theorem advanceDraws_port : (s.advanceDraws n).port = s.port := rfl
@[simp] theorem advanceDraws_replies : (s.advanceDraws n).replies = s.replies := rfl
@[simp] theorem advanceDraws_events : (s.advanceDraws n).events = s.events := rfl
@[simp] theorem advanceDraws_draws : (s.advanceDraws n).draws = s.draws + n := rfl
@[simp] theorem advanceDraws_get : (s.advanceDraws n).get q = s.get q := by cases q <;> rfl
@[simp] theorem advanceDraws_isWritten : (s.advanceDraws n).isWritten q = s.isWritten q := by
  cases q <;> rfl

/-! ### `State.reply` -/

@[simp] theorem reply_xin : (s.reply agent v).xin = s.xin := rfl
@[simp] theorem reply_yout : (s.reply agent v).yout = s.yout := rfl
@[simp] theorem reply_dl0 : (s.reply agent v).dl0 = s.dl0 := rfl
@[simp] theorem reply_dl1 : (s.reply agent v).dl1 = s.dl1 := rfl
@[simp] theorem reply_k0 : (s.reply agent v).k0 = s.k0 := rfl
@[simp] theorem reply_k1 : (s.reply agent v).k1 = s.k1 := rfl
@[simp] theorem reply_k2 : (s.reply agent v).k2 = s.k2 := rfl
@[simp] theorem reply_k3 : (s.reply agent v).k3 = s.k3 := rfl
@[simp] theorem reply_k4 : (s.reply agent v).k4 = s.k4 := rfl
@[simp] theorem reply_illcmd : (s.reply agent v).illcmd = s.illcmd := rfl
@[simp] theorem reply_written : (s.reply agent v).written = s.written := rfl
@[simp] theorem reply_port : (s.reply agent v).port = s.port := rfl
@[simp] theorem reply_replies : (s.reply agent v).replies = s.replies ++ [{ agent := agent, word := v }] := rfl
@[simp] theorem reply_events : (s.reply agent v).events = s.events := rfl
@[simp] theorem reply_draws : (s.reply agent v).draws = s.draws := rfl
@[simp] theorem reply_get : (s.reply agent v).get q = s.get q := by cases q <;> rfl
@[simp] theorem reply_isWritten : (s.reply agent v).isWritten q = s.isWritten q := by
  cases q <;> rfl

/-! ### `illegalCommand` -/

@[simp] theorem illegalCommand_xin : (illegalCommand s).xin = s.xin := rfl
@[simp] theorem illegalCommand_yout : (illegalCommand s).yout = s.yout := rfl
@[simp] theorem illegalCommand_dl0 : (illegalCommand s).dl0 = s.dl0 := rfl
@[simp] theorem illegalCommand_dl1 : (illegalCommand s).dl1 = s.dl1 := rfl
@[simp] theorem illegalCommand_k0 : (illegalCommand s).k0 = s.k0 := rfl
@[simp] theorem illegalCommand_k1 : (illegalCommand s).k1 = s.k1 := rfl
@[simp] theorem illegalCommand_k2 : (illegalCommand s).k2 = s.k2 := rfl
@[simp] theorem illegalCommand_k3 : (illegalCommand s).k3 = s.k3 := rfl
@[simp] theorem illegalCommand_k4 : (illegalCommand s).k4 = s.k4 := rfl
@[simp] theorem illegalCommand_illcmd : (illegalCommand s).illcmd = true := rfl
@[simp] theorem illegalCommand_written : (illegalCommand s).written = s.written := rfl
@[simp] theorem illegalCommand_port : (illegalCommand s).port = s.port := rfl
@[simp] theorem illegalCommand_replies : (illegalCommand s).replies = s.replies := rfl
@[simp] theorem illegalCommand_events : (illegalCommand s).events = s.events ++ [.illegalCommand] := rfl
@[simp] theorem illegalCommand_draws : (illegalCommand s).draws = s.draws := rfl
@[simp] theorem illegalCommand_get : (illegalCommand s).get q = s.get q := by cases q <;> rfl
@[simp] theorem illegalCommand_isWritten : (illegalCommand s).isWritten q = s.isWritten q := by
  cases q <;> rfl

/-! ### `clearIllegal` -/

@[simp] theorem clearIllegal_xin : (clearIllegal s).xin = s.xin := rfl
@[simp] theorem clearIllegal_yout : (clearIllegal s).yout = s.yout := rfl
@[simp] theorem clearIllegal_dl0 : (clearIllegal s).dl0 = s.dl0 := rfl
@[simp] theorem clearIllegal_dl1 : (clearIllegal s).dl1 = s.dl1 := rfl
@[simp] theorem clearIllegal_k0 : (clearIllegal s).k0 = s.k0 := rfl
@[simp] theorem clearIllegal_k1 : (clearIllegal s).k1 = s.k1 := rfl
@[simp] theorem clearIllegal_k2 : (clearIllegal s).k2 = s.k2 := rfl
@[simp] theorem clearIllegal_k3 : (clearIllegal s).k3 = s.k3 := rfl
@[simp] theorem clearIllegal_k4 : (clearIllegal s).k4 = s.k4 := rfl
@[simp] theorem clearIllegal_illcmd : (clearIllegal s).illcmd = false := rfl
@[simp] theorem clearIllegal_written : (clearIllegal s).written = s.written := rfl
@[simp] theorem clearIllegal_port : (clearIllegal s).port = s.port := rfl
@[simp] theorem clearIllegal_replies : (clearIllegal s).replies = s.replies := rfl
@[simp] theorem clearIllegal_events : (clearIllegal s).events = s.events := rfl
@[simp] theorem clearIllegal_draws : (clearIllegal s).draws = s.draws := rfl
@[simp] theorem clearIllegal_get : (clearIllegal s).get q = s.get q := by cases q <;> rfl
@[simp] theorem clearIllegal_isWritten : (clearIllegal s).isWritten q = s.isWritten q := by
  cases q <;> rfl

/-! ### `platformReset` -/

@[simp] theorem platformReset_port : (platformReset s).port = s.port := rfl
@[simp] theorem platformReset_replies : (platformReset s).replies = s.replies := rfl
@[simp] theorem platformReset_events : (platformReset s).events = s.events := rfl
@[simp] theorem platformReset_illcmd : (platformReset s).illcmd = false := rfl
@[simp] theorem platformReset_written : (platformReset s).written = Marks.none := rfl
@[simp] theorem platformReset_draws : (platformReset s).draws = s.draws + 9 := rfl
@[simp] theorem platformReset_isWritten : (platformReset s).isWritten q = false := by
  cases q <;> rfl

/-! ### The writes of a command -/

@[simp] theorem writeOutDl0_xin : (writeOutDl0 y e s).xin = s.xin := rfl
@[simp] theorem writeOutDl0_yout : (writeOutDl0 y e s).yout = y := rfl
@[simp] theorem writeOutDl0_dl0 : (writeOutDl0 y e s).dl0 = e := rfl
@[simp] theorem writeOutDl0_dl1 : (writeOutDl0 y e s).dl1 = s.dl1 := rfl
@[simp] theorem writeOutDl0_k0 : (writeOutDl0 y e s).k0 = s.k0 := rfl
@[simp] theorem writeOutDl0_k1 : (writeOutDl0 y e s).k1 = s.k1 := rfl
@[simp] theorem writeOutDl0_k2 : (writeOutDl0 y e s).k2 = s.k2 := rfl
@[simp] theorem writeOutDl0_k3 : (writeOutDl0 y e s).k3 = s.k3 := rfl
@[simp] theorem writeOutDl0_k4 : (writeOutDl0 y e s).k4 = s.k4 := rfl
@[simp] theorem writeOutDl0_illcmd : (writeOutDl0 y e s).illcmd = s.illcmd := rfl
@[simp] theorem writeOutDl0_port : (writeOutDl0 y e s).port = s.port := rfl
@[simp] theorem writeOutDl0_replies : (writeOutDl0 y e s).replies = s.replies := rfl
@[simp] theorem writeOutDl0_events : (writeOutDl0 y e s).events = s.events := rfl
@[simp] theorem writeOutDl0_draws : (writeOutDl0 y e s).draws = s.draws := rfl
@[simp] theorem writeOutDl0_written :
    (writeOutDl0 y e s).written = { s.written with yout := true, dl0 := true } := rfl
@[simp] theorem writeOutDl01_xin : (writeOutDl01 y e f s).xin = s.xin := rfl
@[simp] theorem writeOutDl01_yout : (writeOutDl01 y e f s).yout = y := rfl
@[simp] theorem writeOutDl01_dl0 : (writeOutDl01 y e f s).dl0 = e := rfl
@[simp] theorem writeOutDl01_dl1 : (writeOutDl01 y e f s).dl1 = f := rfl
@[simp] theorem writeOutDl01_k0 : (writeOutDl01 y e f s).k0 = s.k0 := rfl
@[simp] theorem writeOutDl01_k1 : (writeOutDl01 y e f s).k1 = s.k1 := rfl
@[simp] theorem writeOutDl01_k2 : (writeOutDl01 y e f s).k2 = s.k2 := rfl
@[simp] theorem writeOutDl01_k3 : (writeOutDl01 y e f s).k3 = s.k3 := rfl
@[simp] theorem writeOutDl01_k4 : (writeOutDl01 y e f s).k4 = s.k4 := rfl
@[simp] theorem writeOutDl01_illcmd : (writeOutDl01 y e f s).illcmd = s.illcmd := rfl
@[simp] theorem writeOutDl01_port : (writeOutDl01 y e f s).port = s.port := rfl
@[simp] theorem writeOutDl01_replies : (writeOutDl01 y e f s).replies = s.replies := rfl
@[simp] theorem writeOutDl01_events : (writeOutDl01 y e f s).events = s.events := rfl
@[simp] theorem writeOutDl01_draws : (writeOutDl01 y e f s).draws = s.draws := rfl
@[simp] theorem writeOutDl01_written : (writeOutDl01 y e f s).written =
    { s.written with yout := true, dl0 := true, dl1 := true } := rfl

/-! ### `noteUninit` -/

/-- No register is named exactly where all have been written (R31). -/
theorem firstUnwritten_eq_none (rs : List DataReg) :
    firstUnwritten rs s = none ↔ ∀ r ∈ rs, s.isWritten r = true := by
  simp [firstUnwritten, List.find?_eq_none]

/-- A register that is named is one of those read, and holds ⊥ (R31). -/
theorem firstUnwritten_eq_some {rs : List DataReg} {r : DataReg} (h : firstUnwritten rs s = some r) :
    r ∈ rs ∧ s.isWritten r = false :=
  ⟨List.mem_of_find?_eq_some h, by simpa using List.find?_some h⟩

/-- Which register is named depends on the marks only. -/
theorem firstUnwritten_congr {s t : State} (h : s.written = t.written) (rs : List DataReg) :
    firstUnwritten rs s = firstUnwritten rs t := by
  unfold firstUnwritten
  congr 1
  funext r
  cases r <;> simp [h]

/-- Everything a read of registers can do besides giving their words: record one Uninit, or nothing. -/
theorem noteUninit_cases (rs : List DataReg) :
    (firstUnwritten rs s = none ∧ noteUninit rs s = s) ∨
      ∃ r, firstUnwritten rs s = some r ∧ noteUninit rs s = s.note (.uninit r) := by
  unfold noteUninit
  cases firstUnwritten rs s with
  | none => exact .inl ⟨rfl, rfl⟩
  | some r => exact .inr ⟨r, rfl, rfl⟩

@[simp] theorem noteUninit_xin (rs : List DataReg) : (noteUninit rs s).xin = s.xin := by
  unfold noteUninit; split <;> rfl
@[simp] theorem noteUninit_yout (rs : List DataReg) : (noteUninit rs s).yout = s.yout := by
  unfold noteUninit; split <;> rfl
@[simp] theorem noteUninit_dl0 (rs : List DataReg) : (noteUninit rs s).dl0 = s.dl0 := by
  unfold noteUninit; split <;> rfl
@[simp] theorem noteUninit_dl1 (rs : List DataReg) : (noteUninit rs s).dl1 = s.dl1 := by
  unfold noteUninit; split <;> rfl
@[simp] theorem noteUninit_k0 (rs : List DataReg) : (noteUninit rs s).k0 = s.k0 := by
  unfold noteUninit; split <;> rfl
@[simp] theorem noteUninit_k1 (rs : List DataReg) : (noteUninit rs s).k1 = s.k1 := by
  unfold noteUninit; split <;> rfl
@[simp] theorem noteUninit_k2 (rs : List DataReg) : (noteUninit rs s).k2 = s.k2 := by
  unfold noteUninit; split <;> rfl
@[simp] theorem noteUninit_k3 (rs : List DataReg) : (noteUninit rs s).k3 = s.k3 := by
  unfold noteUninit; split <;> rfl
@[simp] theorem noteUninit_k4 (rs : List DataReg) : (noteUninit rs s).k4 = s.k4 := by
  unfold noteUninit; split <;> rfl
@[simp] theorem noteUninit_illcmd (rs : List DataReg) : (noteUninit rs s).illcmd = s.illcmd := by
  unfold noteUninit; split <;> rfl
@[simp] theorem noteUninit_written (rs : List DataReg) : (noteUninit rs s).written = s.written := by
  unfold noteUninit; split <;> rfl
@[simp] theorem noteUninit_port (rs : List DataReg) : (noteUninit rs s).port = s.port := by
  unfold noteUninit; split <;> rfl
@[simp] theorem noteUninit_replies (rs : List DataReg) : (noteUninit rs s).replies = s.replies := by
  unfold noteUninit; split <;> rfl
@[simp] theorem noteUninit_draws (rs : List DataReg) : (noteUninit rs s).draws = s.draws := by
  unfold noteUninit; split <;> rfl
@[simp] theorem noteUninit_get (rs : List DataReg) : (noteUninit rs s).get q = s.get q := by
  unfold noteUninit; split <;> simp

@[simp] theorem noteUninit_isWritten (rs : List DataReg) :
    (noteUninit rs s).isWritten q = s.isWritten q := by
  unfold noteUninit; split <;> simp

/-- Nothing unwritten among the registers read: nothing is recorded. -/
theorem noteUninit_of_written (rs : List DataReg) (h : ∀ r ∈ rs, s.isWritten r = true) :
    noteUninit rs s = s := by
  have : firstUnwritten rs s = none := by
    simpa [firstUnwritten, List.find?_eq_none] using h
  simp [noteUninit, this]

/-- The register an Uninit names is one of those read, and holds ⊥. -/
theorem firstUnwritten_some {rs : List DataReg} {r : DataReg} (h : firstUnwritten rs s = some r) :
    r ∈ rs ∧ s.isWritten r = false :=
  ⟨List.mem_of_find?_eq_some h, by simpa using List.find?_some h⟩

theorem firstUnwritten_none_iff (rs : List DataReg) :
    firstUnwritten rs s = none ↔ ∀ r ∈ rs, s.isWritten r = true := by
  simp [firstUnwritten, List.find?_eq_none]

end Sys2Proof.Machine
end

