-- ==== Sys2Proof/Laws/Commands.lean ====
section
/-! SUPPORT. Everything a command can do: it answers a next state that differs from the state before it in the output sample, the delay line, their marks, the events and the draw counter. -/

namespace Sys2Proof.Machine

variable (s : State)

/-- The state a command answers. -/
def afterCommand (i : Instr) (s : State) : State :=
  match i with
  | .biquad =>
    let r := biquadAlg (binary32 s.draws)
      { a0 := s.k0, a1 := s.k1, b0 := s.k2, b1 := s.k3, b2 := s.k4 } s.xin s.dl0 s.dl1
    (writeOutDl01 r.y r.dl0 r.dl1 (noteUninit (operandsRead .biquad) s)).advanceDraws 9
  | .ap1 =>
    let r := ap1Alg (binary32 s.draws) s.k0 s.xin s.dl0
    (writeOutDl0 r.1 r.2 (noteUninit (operandsRead .ap1) s)).advanceDraws 4
  | .ap2 =>
    let r := ap2Alg (binary32 s.draws) s.k0 s.k1 s.xin s.dl0 s.dl1
    (writeOutDl01 r.y r.dl0 r.dl1 (noteUninit (operandsRead .ap2) s)).advanceDraws 6
  | .dcblk =>
    let r := dcblkAlg (binary32 s.draws) s.k0 s.xin s.dl0 s.dl1
    (writeOutDl01 r.y r.dl0 r.dl1 (noteUninit (operandsRead .dcblk) s)).advanceDraws 3

/-- A command always answers a next state (R94). -/
theorem exec_eq (i : Instr) : exec i s = .next (afterCommand i s) := by cases i <;> rfl

/-- The inversion of `exec`: there is one next state. -/
theorem exec_next {i : Instr} {t : State} (h : exec i s = .next t) : t = afterCommand i s := by
  rw [exec_eq] at h; cases h; rfl

/-! ### What a command leaves unchanged -/

@[simp] theorem afterCommand_xin (i : Instr) : (afterCommand i s).xin = s.xin := by
  cases i <;> simp [afterCommand]

@[simp] theorem afterCommand_k0 (i : Instr) : (afterCommand i s).k0 = s.k0 := by
  cases i <;> simp [afterCommand]

@[simp] theorem afterCommand_k1 (i : Instr) : (afterCommand i s).k1 = s.k1 := by
  cases i <;> simp [afterCommand]

@[simp] theorem afterCommand_k2 (i : Instr) : (afterCommand i s).k2 = s.k2 := by
  cases i <;> simp [afterCommand]

@[simp] theorem afterCommand_k3 (i : Instr) : (afterCommand i s).k3 = s.k3 := by
  cases i <;> simp [afterCommand]

@[simp] theorem afterCommand_k4 (i : Instr) : (afterCommand i s).k4 = s.k4 := by
  cases i <;> simp [afterCommand]

@[simp] theorem afterCommand_illcmd (i : Instr) : (afterCommand i s).illcmd = s.illcmd := by
  cases i <;> simp [afterCommand]

@[simp] theorem afterCommand_port (i : Instr) : (afterCommand i s).port = s.port := by
  cases i <;> simp [afterCommand]

@[simp] theorem afterCommand_replies (i : Instr) : (afterCommand i s).replies = s.replies := by
  cases i <;> simp [afterCommand]

@[simp] theorem afterCommand_ap1_dl1 : (afterCommand .ap1 s).dl1 = s.dl1 := by
  simp [afterCommand]

/-! ### What a command records -/

@[simp] theorem afterCommand_events (i : Instr) :
    (afterCommand i s).events = (noteUninit (operandsRead i) s).events := by
  cases i <;> simp [afterCommand]

theorem afterCommand_draws (i : Instr) : (afterCommand i s).draws = s.draws + opCount i := by
  cases i <;> simp [afterCommand, opCount]

theorem afterCommand_written (i : Instr) : (afterCommand i s).written =
    { s.written with
      yout := true, dl0 := true, dl1 := (decide (i ≠ .ap1) || s.written.dl1) } := by
  cases i <;> simp [afterCommand]

/-! ### `execute` -/

/-- All a write of a word to CMD can do (R57): run its command, or raise IllegalCommand. -/
theorem execute_cases (v : Word) :
    (∃ i, decode v = .ok i ∧ execute v s = .next (afterCommand i s)) ∨
      (rsvdField v ≠ 0#30 ∧ decode v = .error (.illegalCommand v) ∧
        execute v s = .next (illegalCommand s)) := by
  unfold execute
  obtain ⟨_, h⟩ | ⟨h0, h⟩ := decode_cases v
  · exact .inl ⟨_, h, by simp [h, exec_eq]⟩
  · exact .inr ⟨h0, h, by simp [h]⟩

end Sys2Proof.Machine
end

