-- ==== Sys2Proof/Laws/Float.lean ====
section
/-! SUPPORT. What the parts of binary32 arithmetic do: packing, classes, negation, rounding. -/

namespace Sys2Proof.Machine

/-! ### Fields of a packed word -/

theorem packSign_toNat (n : Bool) {p : Nat} (h : p < 2 ^ 31) :
    (packSign n p).toNat = (if n then 2 ^ 31 else 0) + p := by
  simp only [packSign, BitVec.toNat_ofNat]
  exact Nat.mod_eq_of_lt (by cases n <;> simp <;> omega)

theorem signOf_eq (w : Word) : signOf w = decide (2 ^ 31 ≤ w.toNat) := by
  have := w.isLt
  rw [signOf, Bool.eq_iff_iff, beq_iff_eq, decide_eq_true_iff]
  omega

theorem expOf_eq (w : Word) : expOf w = w.toNat / 2 ^ 23 % 2 ^ 8 := rfl

theorem fracOf_eq (w : Word) : fracOf w = w.toNat % 2 ^ 23 := rfl

/-- The sign is bit 31 (R64). -/
theorem signOf_eq_bit (w : Word) : signOf w = w.getLsbD 31 := by
  have := w.isLt
  rw [signOf_eq, BitVec.getLsbD, Nat.testBit_eq_decide_div_mod_eq, Bool.eq_iff_iff,
    decide_eq_true_iff, decide_eq_true_iff]
  omega

/-- The biased exponent is bits 30:23 (R64). -/
theorem expOf_eq_bits (w : Word) : expOf w = (w.extractLsb' 23 8).toNat := by
  simp [expOf, BitVec.extractLsb'_toNat, Nat.shiftRight_eq_div_pow]

/-- The fraction is bits 22:0 (R64). -/
theorem fracOf_eq_bits (w : Word) : fracOf w = (w.extractLsb' 0 23).toNat := by
  simp [fracOf, BitVec.extractLsb'_toNat]

theorem expOf_lt (w : Word) : expOf w < 256 := by rw [expOf_eq]; omega

theorem fracOf_lt (w : Word) : fracOf w < 2 ^ 23 := by rw [fracOf_eq]; omega

/-- A word is its sign, exponent and fraction (R64). -/
theorem toNat_eq_fields (w : Word) :
    w.toNat = (if signOf w then 2 ^ 31 else 0) + (expOf w * 2 ^ 23 + fracOf w) := by
  have := w.isLt
  rw [signOf_eq, expOf_eq, fracOf_eq]
  by_cases h : 2 ^ 31 ≤ w.toNat
  · simp only [h, decide_true, if_true]; omega
  · simp only [h, decide_false]; simp; omega

theorem packSign_fields (w : Word) : packSign (signOf w) (expOf w * 2 ^ 23 + fracOf w) = w := by
  have h1 := expOf_lt w
  have h2 := fracOf_lt w
  apply BitVec.eq_of_toNat_eq
  rw [packSign_toNat _ (by omega), ← toNat_eq_fields]

theorem signOf_packSign (n : Bool) {p : Nat} (h : p < 2 ^ 31) : signOf (packSign n p) = n := by
  rw [signOf_eq, packSign_toNat n h]
  cases n
  · simp; omega
  · simp

theorem expOf_packSign (n : Bool) {p : Nat} (h : p < 2 ^ 31) : expOf (packSign n p) = p / 2 ^ 23 := by
  rw [expOf_eq, packSign_toNat n h]
  cases n <;> simp only [if_true, Bool.false_eq_true, if_false] <;> omega

theorem fracOf_packSign (n : Bool) {p : Nat} (h : p < 2 ^ 31) :
    fracOf (packSign n p) = p % 2 ^ 23 := by
  rw [fracOf_eq, packSign_toNat n h]
  cases n <;> simp only [if_true, Bool.false_eq_true, if_false] <;> omega

/-! ### Classes by the fields (R65) -/

theorem isZero_iff (w : Word) : isZero w = true ↔ expOf w = 0 ∧ fracOf w = 0 := by
  unfold isZero classify
  split <;> (try split) <;> (try split) <;> (try split) <;> simp_all

theorem isInf_iff (w : Word) : isInf w = true ↔ expOf w = 255 ∧ fracOf w = 0 := by
  unfold isInf classify
  split <;> (try split) <;> (try split) <;> (try split) <;> simp_all

theorem isNaN_iff (w : Word) : isNaN w = true ↔ expOf w = 255 ∧ fracOf w ≠ 0 := by
  unfold isNaN classify
  split <;> (try split) <;> (try split) <;> (try split) <;> simp_all

theorem isFinite_iff (w : Word) : isFinite w = true ↔ expOf w < 255 := by
  have := expOf_lt w
  have h1 := isNaN_iff w
  have h2 := isInf_iff w
  simp only [isFinite, Bool.and_eq_true, Bool.not_eq_true', ← Bool.not_eq_true, h1, h2]
  omega

/-- A finite pattern is a zero exactly when its magnitude is 0. -/
theorem magOf_eq_zero_iff (w : Word) : magOf w = 0 ↔ isZero w = true := by
  rw [isZero_iff, magOf]
  split <;> rename_i h
  · simp [h]
  · simp [h]

theorem isNaN_of_isQNaN {w : Word} (h : isQNaN w = true) : isNaN w = true := by
  simp only [isQNaN] at h
  simp [isNaN, h]

/-- f[22] is bit 22 (R65). -/
theorem quietBit_eq (w : Word) : w.getLsbD 22 = decide (fracOf w / 2 ^ 22 = 1) := by
  rw [fracOf_eq, BitVec.getLsbD, Nat.testBit_eq_decide_div_mod_eq, Bool.eq_iff_iff,
    decide_eq_true_iff, decide_eq_true_iff]
  omega

theorem isQNaN_iff (w : Word) : isQNaN w = true ↔ expOf w = 255 ∧ 2 ^ 22 ≤ fracOf w := by
  have := fracOf_lt w
  have h : 2 ^ 22 ≤ fracOf w ↔ fracOf w / 2 ^ 22 = 1 := by omega
  rw [h]
  unfold isQNaN classify
  split <;> (try split) <;> (try split) <;> (try split) <;> simp_all

/-- Whatever the draw, it is a quiet NaN (R72). -/
@[simp] theorem isQNaN_quietNaN (d : Nat) : isQNaN (quietNaN d) = true := by
  have h : ((Config.nanChoice d).extractLsb' 0 22).toNat < 2 ^ 22 := BitVec.isLt _
  rw [isQNaN_iff, quietNaN, infBits]
  rw [expOf_packSign _ (by omega), fracOf_packSign _ (by omega)]
  omega

@[simp] theorem isNaN_quietNaN (d : Nat) : isNaN (quietNaN d) = true :=
  isNaN_of_isQNaN (isQNaN_quietNaN d)

/-! ### Negation (R67) -/

theorem mod_lt_31 (w : Word) : w.toNat % 2 ^ 31 < 2 ^ 31 := Nat.mod_lt _ (by decide)

@[simp] theorem signOf_neg (w : Word) : signOf (neg w) = !signOf w :=
  signOf_packSign _ (mod_lt_31 w)

@[simp] theorem expOf_neg (w : Word) : expOf (neg w) = expOf w := by
  rw [neg, expOf_packSign _ (mod_lt_31 w), expOf_eq]; omega

@[simp] theorem fracOf_neg (w : Word) : fracOf (neg w) = fracOf w := by
  rw [neg, fracOf_packSign _ (mod_lt_31 w), fracOf_eq]; omega

/-- `neg` flips bit 31 and no other (R67). -/
theorem neg_eq_xor (w : Word) : neg w = w ^^^ 0x80000000#32 := by
  have hs : signOf (w ^^^ 0x80000000#32) = !signOf w := by
    rw [signOf_eq_bit, signOf_eq_bit, BitVec.getLsbD_xor,
      show (0x80000000#32).getLsbD 31 = true by decide, Bool.xor_true]
  have he : expOf (w ^^^ 0x80000000#32) = expOf w := by
    rw [expOf_eq_bits, expOf_eq_bits, BitVec.extractLsb'_xor,
      show (0x80000000#32).extractLsb' 23 8 = 0#8 by decide, BitVec.xor_zero]
  have hf : fracOf (w ^^^ 0x80000000#32) = fracOf w := by
    rw [fracOf_eq_bits, fracOf_eq_bits, BitVec.extractLsb'_xor,
      show (0x80000000#32).extractLsb' 0 23 = 0#23 by decide, BitVec.xor_zero]
  rw [← packSign_fields (neg w), ← packSign_fields (w ^^^ 0x80000000#32), hs, he, hf, signOf_neg,
    expOf_neg, fracOf_neg]

theorem isNaN_congr {a b : Word} (he : expOf a = expOf b) (hf : fracOf a = fracOf b) :
    isNaN a = isNaN b := by
  rw [Bool.eq_iff_iff, isNaN_iff, isNaN_iff, he, hf]

theorem isInf_congr {a b : Word} (he : expOf a = expOf b) (hf : fracOf a = fracOf b) :
    isInf a = isInf b := by
  rw [Bool.eq_iff_iff, isInf_iff, isInf_iff, he, hf]

theorem isZero_congr {a b : Word} (he : expOf a = expOf b) (hf : fracOf a = fracOf b) :
    isZero a = isZero b := by
  rw [Bool.eq_iff_iff, isZero_iff, isZero_iff, he, hf]

@[simp] theorem isNaN_neg (w : Word) : isNaN (neg w) = isNaN w := isNaN_congr (by simp) (by simp)

@[simp] theorem isInf_neg (w : Word) : isInf (neg w) = isInf w := isInf_congr (by simp) (by simp)

@[simp] theorem isZero_neg (w : Word) : isZero (neg w) = isZero w :=
  isZero_congr (by simp) (by simp)

@[simp] theorem isFinite_neg (w : Word) : isFinite (neg w) = isFinite w := by simp [isFinite]

@[simp] theorem magOf_neg (w : Word) : magOf (neg w) = magOf w := by simp [magOf]

@[simp] theorem valOf_neg (w : Word) : valOf (neg w) = -valOf w := by
  cases h : signOf w <;> simp [valOf, h]

/-! ### Values -/

@[simp] theorem natAbs_valOf (w : Word) : (valOf w).natAbs = magOf w := by
  unfold valOf; split <;> simp

theorem valOf_eq_zero_iff (w : Word) : valOf w = 0 ↔ isZero w = true := by
  rw [← magOf_eq_zero_iff, ← natAbs_valOf, Int.natAbs_eq_zero]

/-- The magnitude of the 31 bits below a sign. -/
def magBits (p : Nat) : Nat :=
  if p / 2 ^ 23 = 0 then p else (2 ^ 23 + p % 2 ^ 23) * 2 ^ (p / 2 ^ 23 - 1)

theorem magOf_packSign (n : Bool) {p : Nat} (h : p < 2 ^ 31) : magOf (packSign n p) = magBits p := by
  rw [magOf, expOf_packSign n h, fracOf_packSign n h, magBits]
  split <;> rename_i h0
  · omega
  · rfl

/-! ### Rounding (R71) -/

theorem roundBits_le (n sh : Nat) : roundBits n sh ≤ infBits := Nat.min_le_left _ _

theorem roundBits_lt (n sh : Nat) : roundBits n sh < 2 ^ 31 :=
  Nat.lt_of_le_of_lt (roundBits_le n sh) (by decide)

/-- A packed rounding is never a NaN: it is finite, or the infinity (R69). -/
theorem isNaN_packSign_roundBits (s : Bool) (n sh : Nat) :
    isNaN (packSign s (roundBits n sh)) = false := by
  have h1 := roundBits_le n sh
  have h2 := roundBits_lt n sh
  rw [← Bool.not_eq_true, isNaN_iff, expOf_packSign s h2, fracOf_packSign s h2]
  simp only [infBits] at h1
  omega

theorem isInf_packSign_roundBits (s : Bool) (n sh : Nat) :
    isInf (packSign s (roundBits n sh)) = true ↔ roundBits n sh = infBits := by
  have h1 := roundBits_le n sh
  have h2 := roundBits_lt n sh
  rw [isInf_iff, expOf_packSign s h2, fracOf_packSign s h2]
  simp only [infBits] at *
  omega

/-- `divRNE` is nearest: it is off by at most half. -/
theorem divRNE_near (n k : Nat) :
    2 * n ≤ 2 * (divRNE n k * 2 ^ k) + 2 ^ k ∧ 2 * (divRNE n k * 2 ^ k) ≤ 2 * n + 2 ^ k := by
  have hd := Nat.div_add_mod n (2 ^ k)
  have hm := Nat.mod_lt n (Nat.two_pow_pos k)
  have hc : 2 ^ k * (n / 2 ^ k) = n / 2 ^ k * 2 ^ k := Nat.mul_comm _ _
  unfold divRNE
  simp only
  split <;> rename_i h
  · rw [Nat.add_mul]; omega
  · omega

/-- `divRNE` breaks a tie to even. -/
theorem divRNE_tie (n k : Nat)
    (h : 2 * n = 2 * (divRNE n k * 2 ^ k) + 2 ^ k ∨ 2 * (divRNE n k * 2 ^ k) = 2 * n + 2 ^ k) :
    divRNE n k % 2 = 0 := by
  have hd := Nat.div_add_mod n (2 ^ k)
  have hm := Nat.mod_lt n (Nat.two_pow_pos k)
  have hc : 2 ^ k * (n / 2 ^ k) = n / 2 ^ k * 2 ^ k := Nat.mul_comm _ _
  revert h
  unfold divRNE
  simp only
  split <;> rename_i h
  · rw [Nat.add_mul]; omega
  · omega

/-- A whole quotient is left as it is. -/
theorem divRNE_exact (q k : Nat) : divRNE (q * 2 ^ k) k = q := by
  have := Nat.two_pow_pos k
  simp only [divRNE, Nat.mul_div_cancel _ this, Nat.mul_mod_left]
  rw [if_neg (by omega)]

theorem bitLength_le_iff (n k : Nat) : bitLength n ≤ k ↔ n < 2 ^ k := by
  unfold bitLength
  split <;> rename_i h
  · subst h; simp
  · rw [Nat.add_one_le_iff, Nat.log2_lt h]

/-- The kept digits of a rounding: at most 24, and at least 24 where digits beyond the shared exponent are
dropped. -/
theorem divRNE_dropBits_le (n sh : Nat) : divRNE n (dropBits n sh) ≤ 2 ^ 24 := by
  have h : n < 2 ^ (dropBits n sh + 24) := by
    rw [← bitLength_le_iff]; unfold dropBits; omega
  have hq : n / 2 ^ dropBits n sh < 2 ^ 24 := by
    rw [Nat.div_lt_iff_lt_mul (Nat.two_pow_pos _)]; rwa [← Nat.pow_add, Nat.add_comm]
  unfold divRNE
  simp only
  split <;> omega

theorem divRNE_dropBits_ge (n sh : Nat) (h : sh < dropBits n sh) :
    2 ^ 23 ≤ divRNE n (dropBits n sh) := by
  have h24 : bitLength n = dropBits n sh + 24 := by unfold dropBits at *; omega
  have hn : ¬ n < 2 ^ (dropBits n sh + 23) := by rw [← bitLength_le_iff]; omega
  have hq : 2 ^ 23 ≤ n / 2 ^ dropBits n sh := by
    rw [Nat.le_div_iff_mul_le (Nat.two_pow_pos _), ← Nat.pow_add, Nat.add_comm]; omega
  unfold divRNE
  simp only
  split <;> omega

/-- What the pattern of a rounding stands for: the kept digits at their place (R65). -/
theorem magBits_roundBits (n sh : Nat) (h : roundBits n sh ≠ infBits) :
    magBits (roundBits n sh) * 2 ^ sh = divRNE n (dropBits n sh) * 2 ^ dropBits n sh := by
  have hle := divRNE_dropBits_le n sh
  have hge := divRNE_dropBits_ge n sh
  have hsh : sh ≤ dropBits n sh := Nat.le_max_left _ _
  have hp : roundBits n sh = 2 ^ 23 * (dropBits n sh - sh) + divRNE n (dropBits n sh) := by
    unfold roundBits at *; omega
  rw [hp]
  generalize divRNE n (dropBits n sh) = q at *
  obtain ⟨e, he⟩ : ∃ e, dropBits n sh = sh + e := ⟨_, (Nat.add_sub_cancel' hsh).symm⟩
  rw [he] at hge ⊢
  rw [Nat.add_sub_cancel_left]
  have hpow : 2 ^ (sh + e) = 2 ^ e * 2 ^ sh := by rw [Nat.add_comm, Nat.pow_add]
  rw [hpow, ← Nat.mul_assoc]
  congr 1
  unfold magBits
  obtain h24 | h24 := Nat.lt_or_eq_of_le hle
  · obtain hs | hn := Nat.lt_or_ge q (2 ^ 23)
    · have he0 : e = 0 := by by_contra hne; have := hge (by omega); omega
      subst he0
      rw [if_pos (by omega)]; simp
    · have h1 : (2 ^ 23 * e + q) / 2 ^ 23 = e + 1 := by omega
      have h2 : (2 ^ 23 * e + q) % 2 ^ 23 = q - 2 ^ 23 := by omega
      rw [h1, h2, if_neg (by omega), Nat.add_sub_cancel' hn, Nat.add_sub_cancel]
  · have h1 : (2 ^ 23 * e + q) / 2 ^ 23 = e + 2 := by omega
    have h2 : (2 ^ 23 * e + q) % 2 ^ 23 = 0 := by omega
    rw [h1, h2, if_neg (by omega), h24, Nat.add_zero, show e + 2 - 1 = e + 1 by omega, Nat.pow_succ]
    ring

/-- A finite pattern's own magnitude rounds to that pattern: arithmetic that is exact stays exact. -/
theorem roundBits_magOf (w : Word) (sh : Nat) (h : isFinite w = true) :
    roundBits (magOf w * 2 ^ sh) sh = expOf w * 2 ^ 23 + fracOf w := by
  rw [isFinite_iff] at h
  have hf := fracOf_lt w
  have hlen : ∀ m k, 2 ^ 23 ≤ m → m < 2 ^ 24 → bitLength (m * 2 ^ k) = k + 24 := by
    intro m k h1 h2
    apply Nat.le_antisymm
    · rw [bitLength_le_iff, Nat.add_comm, Nat.pow_add]
      exact Nat.mul_lt_mul_of_pos_right h2 (Nat.two_pow_pos k)
    · have : ¬ bitLength (m * 2 ^ k) ≤ k + 23 := by
        rw [bitLength_le_iff, Nat.add_comm, Nat.pow_add, Nat.not_lt]
        exact Nat.mul_le_mul_right _ h1
      omega
  by_cases he : expOf w = 0
  · have hm : magOf w = fracOf w := by simp [magOf, he]
    have hd : dropBits (fracOf w * 2 ^ sh) sh = sh := by
      have : bitLength (fracOf w * 2 ^ sh) ≤ sh + 23 := by
        rw [bitLength_le_iff, Nat.add_comm, Nat.pow_add]
        exact Nat.mul_lt_mul_of_pos_right hf (Nat.two_pow_pos sh)
      unfold dropBits; omega
    rw [hm, roundBits, hd, divRNE_exact, he, infBits]
    omega
  · obtain ⟨e, he'⟩ : ∃ e, expOf w = e + 1 := ⟨expOf w - 1, by omega⟩
    have hm : magOf w * 2 ^ sh = (2 ^ 23 + fracOf w) * 2 ^ (e + sh) := by
      rw [magOf, if_neg he, he', Nat.add_sub_cancel, Nat.mul_assoc, Nat.pow_add]
    have hd : dropBits ((2 ^ 23 + fracOf w) * 2 ^ (e + sh)) sh = e + sh := by
      rw [dropBits, hlen _ _ (by omega) (by omega)]; omega
    rw [hm, roundBits, hd, divRNE_exact, he', infBits]
    omega

/-- Rounding a finite pattern's own value gives the pattern back. -/
theorem packSign_roundBits_magOf (w : Word) (sh : Nat) (h : isFinite w = true) :
    packSign (signOf w) (roundBits (magOf w * 2 ^ sh) sh) = w := by
  rw [roundBits_magOf w sh h, packSign_fields]

end Sys2Proof.Machine
end

