-- ==== Sys2Proof/Laws/Host.lean ====
section
/-! SUPPORT. Everything one step can do: the inversion of `step`, from which every whole-machine claim is derived. -/

namespace Sys2Proof.Machine

variable (s : State)

@[simp] theorem regAt_offsetOf (r : RegName) : regAt (offsetOf r) = some r := by
  revert r
  have : ∀ r ∈ regNames, regAt (offsetOf r) = some r := by decide
  intro r
  refine this r ?_
  cases r with
  | cmd => decide
  | status => decide
  | data d => cases d <;> decide

@[simp] theorem aligned_offsetOf (r : RegName) : aligned (offsetOf r) = true := by
  cases r with
  | cmd => decide
  | status => decide
  | data d => cases d <;> decide

theorem regAt_some {off : BitVec 6} {r : RegName} (h : regAt off = some r) : off = offsetOf r := by
  have := List.find?_some h
  simpa using (beq_iff_eq.mp this).symm

/-- Offsets and registers match one to one. -/
theorem offsetOf_injective {r q : RegName} (h : offsetOf r = offsetOf q) : r = q := by
  have := regAt_offsetOf r
  rw [h, regAt_offsetOf] at this
  exact (Option.some.inj this).symm

/-- A register offset is a well-formed access of R95 exactly when it is 32 bits wide and in the map. -/
theorem wellFormed_iff (a : Access) :
    a.wellFormed = true ↔ shapeOk a = true ∧ (regAt a.off).isSome = true := by
  obtain ⟨w, off, d⟩ := a
  have key : ∀ off : BitVec 6,
      (off.toNat % 4 = 0 ∧ ¬ reservedSlots.contains off) ↔ (aligned off = true ∧ (regAt off).isSome) := by
    decide
  simp only [Access.wellFormed, shapeOk, Bool.and_eq_true, beq_iff_eq, Bool.not_eq_true', and_assoc]
  have := key off
  simp only [Bool.not_eq_true] at this
  tauto

/-- All a host access can do (R98): a bus error, a read of a register, or a write of one. -/
theorem hostAccess_cases (agent : Nat) (a : Access) :
    (a.wellFormed = false ∧ hostAccess agent a s = .fault (.busError a.off)) ∨
      (∃ r, a = hostReadAt (offsetOf r) ∧ hostAccess agent a s = .next (hostRead agent r s)) ∨
      ∃ r v, a = hostWriteAt (offsetOf r) v ∧ hostAccess agent a s = hostWrite r v s := by
  obtain ⟨w, off, d⟩ := a
  have wf := wellFormed_iff ⟨w, off, d⟩
  unfold hostAccess
  by_cases h : shapeOk ⟨w, off, d⟩ = true
  · simp only [h, if_true]
    have hw : w = .w32 := by
      simp only [shapeOk, Bool.and_eq_true, beq_iff_eq] at h; exact h.1
    subst hw
    cases hr : regAt off with
    | none => exact .inl ⟨by simpa [h, hr] using wf, rfl⟩
    | some r =>
      cases regAt_some hr
      cases d with
      | read => exact .inr (.inl ⟨r, rfl, by simp⟩)
      | write v => exact .inr (.inr ⟨r, v, rfl, by simp⟩)
  · simp only [h]
    exact .inl ⟨by simpa [h] using wf, rfl⟩

@[simp] theorem hostAccess_read (agent : Nat) (r : RegName) :
    hostAccess agent (hostReadAt (offsetOf r)) s = .next (hostRead agent r s) := by
  simp [hostAccess, hostReadAt, shapeOk]

@[simp] theorem hostAccess_write (agent : Nat) (r : RegName) (v : Word) :
    hostAccess agent (hostWriteAt (offsetOf r) v) s = hostWrite r v s := by
  simp [hostAccess, hostWriteAt, shapeOk]

/-- A write of a data register other than YOUT sets it (R41). -/
theorem hostWrite_data {d : DataReg} (h : d ≠ .yout) (v : Word) :
    hostWrite (.data d) v s = .next (s.set d v) := by
  cases d <;> first | rfl | exact absurd rfl h

/-- All a host write can do (R41). -/
theorem hostWrite_cases (r : RegName) (v : Word) :
    (r = .cmd ∧ hostWrite r v s = execute v s) ∨
      (r = .status ∧ hostWrite r v s = .next (writeStatus v s)) ∨
      (r = .data .yout ∧ hostWrite r v s = .next s) ∨
      ∃ d, d ≠ .yout ∧ r = .data d ∧ hostWrite r v s = .next (s.set d v) := by
  cases r with
  | cmd => exact .inl ⟨rfl, rfl⟩
  | status => exact .inr (.inl ⟨rfl, rfl⟩)
  | data d =>
    by_cases h : d = .yout
    · subst h; exact .inr (.inr (.inl ⟨rfl, rfl⟩))
    · exact .inr (.inr (.inr ⟨d, h, rfl, hostWrite_data s h v⟩))

@[simp] theorem step_idle (h : s.port = []) : step s = .next s := by
  simp [step, portStep, h]

theorem step_request {q : Request} {rest : List Request} (h : s.port = q :: rest) :
    step s = perform q { s with port := rest } := by
  simp [step, portStep, h]

@[simp] theorem observed_of_written {r : DataReg} (h : s.isWritten r = true) :
    s.observed r = some (s.get r) := by simp [State.observed, h]

@[simp] theorem observed_of_unwritten {r : DataReg} (h : s.isWritten r = false) :
    s.observed r = none := by simp [State.observed, h]

/-- What one request can make of the core `s` (its own request already off the port). -/
inductive Effect (s : State) : Request → State → Prop where
  /-- A host read (R40). -/
  | read (agent : Nat) (r : RegName) :
    Effect s ⟨agent, .access (hostReadAt (offsetOf r))⟩ (hostRead agent r s)
  /-- A command (R57). -/
  | command (agent : Nat) (v : Word) (i : Instr) (h : decode v = .ok i) :
    Effect s ⟨agent, .access (hostWriteAt (offsetOf .cmd) v)⟩ (afterCommand i s)
  /-- An illegal command word (R96). -/
  | illegal (agent : Nat) (v : Word) (h : rsvdField v ≠ 0#30) :
    Effect s ⟨agent, .access (hostWriteAt (offsetOf .cmd) v)⟩ (illegalCommand s)
  /-- A write of STATUS (R27). -/
  | status (agent : Nat) (v : Word) :
    Effect s ⟨agent, .access (hostWriteAt (offsetOf .status) v)⟩ (writeStatus v s)
  /-- A write of YOUT, ignored (R21). -/
  | yout (agent : Nat) (v : Word) :
    Effect s ⟨agent, .access (hostWriteAt (offsetOf (.data .yout)) v)⟩ s
  /-- A write of another data register (R41). -/
  | data (agent : Nat) (d : DataReg) (v : Word) (h : d ≠ .yout) :
    Effect s ⟨agent, .access (hostWriteAt (offsetOf (.data d)) v)⟩ (s.set d v)
  /-- A platform reset (R112). -/
  | reset (agent : Nat) : Effect s ⟨agent, .platformReset⟩ (platformReset s)

/-- All a request can do: one of these effects, or a bus error. -/
theorem perform_cases (q : Request) :
    (∃ t, Effect s q t ∧ perform q s = .next t) ∨
      ∃ a, q.act = .access a ∧ a.wellFormed = false ∧ perform q s = .fault (.busError a.off) := by
  obtain ⟨agent, act⟩ := q
  cases act with
  | platformReset => exact .inl ⟨_, .reset agent, rfl⟩
  | access a =>
    simp only [perform]
    obtain ⟨h, e⟩ | ⟨r, rfl, e⟩ | ⟨r, v, rfl, e⟩ := hostAccess_cases s agent a
    · exact .inr ⟨a, rfl, h, e⟩
    · exact .inl ⟨_, .read agent r, e⟩
    · rw [e]
      obtain ⟨rfl, e⟩ | ⟨rfl, e⟩ | ⟨rfl, e⟩ | ⟨d, hd, rfl, e⟩ := hostWrite_cases s r v <;> rw [e]
      · obtain ⟨i, hi, e⟩ | ⟨h0, _, e⟩ := execute_cases s v
        · exact .inl ⟨_, .command agent v i hi, e⟩
        · exact .inl ⟨_, .illegal agent v h0, e⟩
      · exact .inl ⟨_, .status agent v, rfl⟩
      · exact .inl ⟨_, .yout agent v, rfl⟩
      · exact .inl ⟨_, .data agent d v hd, rfl⟩

/-- All a step can do: nothing if no request waits, else the effect of the first, or a bus error. -/
theorem step_cases :
    (s.port = [] ∧ step s = .next s) ∨
      (∃ q rest t, s.port = q :: rest ∧ Effect { s with port := rest } q t ∧ step s = .next t) ∨
      ∃ q rest a, s.port = q :: rest ∧ q.act = .access a ∧ a.wellFormed = false ∧
        step s = .fault (.busError a.off) := by
  cases h : s.port with
  | nil => exact .inl ⟨rfl, step_idle s h⟩
  | cons q rest =>
    rw [step_request s h]
    obtain ⟨t, e, p⟩ | ⟨a, ha, hw, p⟩ := perform_cases { s with port := rest } q
    · exact .inr (.inl ⟨q, rest, t, rfl, e, p⟩)
    · exact .inr (.inr ⟨q, rest, a, rfl, ha, hw, p⟩)

/-- The inversion of `step`. -/
theorem step_next {t : State} (h : step s = .next t) :
    (s.port = [] ∧ t = s) ∨
      ∃ q rest, s.port = q :: rest ∧ Effect { s with port := rest } q t := by
  obtain ⟨hp, e⟩ | ⟨q, rest, t', hp, he, e⟩ | ⟨_, _, _, _, _, _, e⟩ := step_cases s <;> rw [e] at h
  · cases h; exact .inl ⟨hp, rfl⟩
  · cases h; exact .inr ⟨q, rest, hp, he⟩
  · cases h

/-- An effect leaves the rest of the port as it is. -/
theorem effect_port {q : Request} {t : State} (h : Effect s q t) : t.port = s.port := by
  cases h <;> simp [hostRead, writeStatus]
  split <;> simp

end Sys2Proof.Machine
end

