-- ==== Sys2Proof/Laws/PerInstr.lean ====
section
/-! SUPPORT. Per instruction: the command word as syntax (R53, R55). -/

namespace Sys2Proof.Laws.CommandWord

/-- The command is well formed, and its word holds zero in RSVD and the command's own number in OP, and is
one of the four legal words. -/
def Statement (i : Instr) : Prop :=
  i.wellFormed = true ∧ rsvdField (encode i) = 0#30 ∧ opField (encode i) = opOf i ∧
    kindOf (opOf i) = i ∧ legalCommand (encode i) = true

theorem biquad : Statement .biquad := by simp only [Statement]; decide

theorem ap1 : Statement .ap1 := by simp only [Statement]; decide

theorem ap2 : Statement .ap2 := by simp only [Statement]; decide

theorem dcblk : Statement .dcblk := by simp only [Statement]; decide

end Sys2Proof.Laws.CommandWord
end

