-- ==== Sys2Proof/Laws/Script.lean ====
section
/-! SUPPORT. What the assembler refuses (R61). -/

namespace Sys2Proof.Machine

/-- An access is refused exactly where it carries a decimal that is not exact in binary32. -/
theorem refused_eq_some {p : Prim} {e : ScriptStop} :
    p.refused = some e ↔ ∃ r neg digits scale, p = .wr r (.decimal neg digits scale) ∧
      decimalWord neg digits scale = none ∧ e = .inexactDecimal neg digits scale := by
  constructor
  · intro h
    rcases p with ⟨r, _ | ⟨neg, digits, scale⟩ | _⟩ | _
    case wr.decimal =>
      cases hw : decimalWord neg digits scale with
      | some w => simp [Prim.refused, hw] at h
      | none => exact ⟨r, neg, digits, scale, rfl, hw, by simpa [Prim.refused, hw] using h.symm⟩
    all_goals simp [Prim.refused] at h
  · rintro ⟨r, neg, digits, scale, rfl, hw, rfl⟩
    simp [Prim.refused, hw]

/-- A script that holds a refused access is refused whole. -/
theorem run_refused {p : Script} {e : ScriptStop} (h : p.expand.findSome? Prim.refused = some e)
    (stepBy : State → Host.Outcome State Fault Refusal) (agent : Nat) (vars : List (String × Word))
    (s : State) : p.run stepBy agent vars s = .error e := by
  simp [Script.run, h]

/-- A script that holds none runs its accesses in order. -/
theorem run_assembled {p : Script} (h : p.expand.findSome? Prim.refused = none)
    (stepBy : State → Host.Outcome State Fault Refusal) (agent : Nat) (vars : List (String × Word))
    (s : State) : p.run stepBy agent vars s =
      runPrims stepBy agent p.expand { core := s, vars := vars, sent := [] } := by
  simp [Script.run, h]

end Sys2Proof.Machine
end

