-- ==== Sys2Proof/Tests/Slice0.lean ====
section
/-! SUPPORT. The model's own tests: expected values are those of 95_test_vectors.md or worked by hand from the rules; and, for each statement with hypotheses, a witness that meets them. -/

namespace Sys2Proof.Tests

open Sys2Proof.Machine

/-! ### Helpers -/

/-- The next state of an outcome. -/
def nextOf (o : Host.Outcome State Fault Refusal) : Option State :=
  match o with
  | .next t => some t
  | .fault _ => none
  | .refused _ => none

/-- The fault of an outcome. -/
def faultOf (o : Host.Outcome State Fault Refusal) : Option Fault :=
  match o with
  | .next _ => none
  | .fault f => some f
  | .refused _ => none

/-- Every data register written. -/
def allWritten : Marks :=
  { xin := true, yout := true, dl0 := true, dl1 := true, k0 := true, k1 := true, k2 := true, k3 := true,
    k4 := true }

/-- A core whose registers are all written: sample, delay line and coefficients as given. -/
def core (x dl0 dl1 k0 k1 k2 k3 k4 : Word) : State :=
  { State.reset with
    xin := x, dl0 := dl0, dl1 := dl1, k0 := k0, k1 := k1, k2 := k2, k3 := k3, k4 := k4,
    written := allWritten }

/-- The core with these accesses of agent 0 at its port. -/
def withPort (s : State) (as : List Access) : State := { s with port := as.map (hostRequest 0) }

/-- YOUT, DL0 and DL1 after a command. -/
def outputs (i : Instr) (s : State) : Option (Word × Word × Word) :=
  (nextOf (exec i s)).map (fun t => (t.yout, t.dl0, t.dl1))

/-! ### Well-formedness: each check refuses an ill-formed term -/

theorem test_wellFormed_instructions :
    Instr.biquad.wellFormed = true ∧ Instr.ap1.wellFormed = true ∧ Instr.ap2.wellFormed = true ∧
      Instr.dcblk.wellFormed = true := by decide

theorem test_illFormed_command_word : legalCommand 0x00000004#32 = false := by decide

theorem test_illFormed_width :
    Access.wellFormed { width := .w8, off := 0x00#6, dir := .read } = false := by decide

theorem test_illFormed_alignment : Access.wellFormed (hostReadAt 0x0A#6) = false := by decide

theorem test_illFormed_reserved : Access.wellFormed (hostReadAt 0x2C#6) = false := by decide

theorem test_illFormed_loop : (Script.loop 0 .done .done).wellFormed = false := by decide

/-! ### Decoding: words written out from R53 (RSVD 30 bits, then OP 2 bits) -/

theorem test_decode_biquad : decode 0b000000000000000000000000000000_00#32 = .ok .biquad := by decide

theorem test_decode_ap1 : decode 0b000000000000000000000000000000_01#32 = .ok .ap1 := by decide

theorem test_decode_ap2 : decode 0b000000000000000000000000000000_10#32 = .ok .ap2 := by decide

theorem test_decode_dcblk : decode 0b000000000000000000000000000000_11#32 = .ok .dcblk := by decide

theorem test_decode_illegal_op2_rsvd1 :
    decode 0b000000000000000000000000000001_10#32 = .error (.illegalCommand 6#32) := by decide

theorem test_decodeImage_little_endian :
    decodeImage [0x03#8, 0x00#8, 0x00#8, 0x00#8] = .ok .dcblk ∧
      decodeImage [0x00#8, 0x00#8, 0x00#8, 0x03#8] = .error (.illegalCommand 0x03000000#32) ∧
      decodeImage [0x00#8] = .error (.notOneWord 1) := by decide

theorem test_decodeTableWord :
    decodeTableWord 32 0 = some .biquad ∧ decodeTableWord 32 1 = some .ap1 ∧
      decodeTableWord 32 2 = some .ap2 ∧ decodeTableWord 32 3 = some .dcblk ∧
      decodeTableWord 8 3 = some .dcblk ∧ decodeTableWord 32 4 = none ∧
      decodeTableWord 64 0 = none := by decide

/-- The first step after reset runs the command placed for it. -/
theorem test_first_step_runs_ap2 :
    step (State.reset.withFetchWord 32 2) = exec .ap2 State.reset := by rfl

/-! ### Numeric primitives (N1 to N19) -/

/-- N1 to N5: signs of zero sums. -/
theorem test_zero_sums :
    fadd 0 0x00000000#32 0x80000000#32 = 0x00000000#32 ∧
      fadd 0 0x80000000#32 0x80000000#32 = 0x80000000#32 ∧
      fsub 0 0x80000000#32 0x00000000#32 = 0x80000000#32 ∧
      fsub 0 0x00000000#32 0x00000000#32 = 0x00000000#32 ∧
      fsub 0 0x3FC00000#32 0x3FC00000#32 = 0x00000000#32 := by decide

/-- N6, N7, N15: signs of zero products. -/
theorem test_zero_products :
    fmul 0 0xC0000000#32 0x00000000#32 = 0x80000000#32 ∧
      fmul 0 0xBF800000#32 0x80000000#32 = 0x00000000#32 ∧
      fmul 0 0xBF000000#32 0x00000001#32 = 0x80000000#32 := by decide

/-- N10 to N13: overflow at 2^128 − 2^103. -/
theorem test_overflow :
    fmul 0 0x40000000#32 0x7F7FFFFF#32 = 0x7F800000#32 ∧
      fmul 0 0xC0000000#32 0x7F7FFFFF#32 = 0xFF800000#32 ∧
      fadd 0 0x7F7FFFFF#32 0x73000000#32 = 0x7F800000#32 ∧
      fadd 0 0x7F7FFFFF#32 0x72800000#32 = 0x7F7FFFFF#32 := by decide

/-- N14, N16, N17: gradual underflow. -/
theorem test_underflow :
    fmul 0 0x3F000000#32 0x00000001#32 = 0x00000000#32 ∧
      fmul 0 0x3F000000#32 0x00000003#32 = 0x00000002#32 ∧
      fmul 0 0x00800000#32 0x3F000000#32 = 0x00400000#32 := by decide

/-- N18, N19: ties to even, down and up. -/
theorem test_ties :
    fadd 0 0x3F800000#32 0x33800000#32 = 0x3F800000#32 ∧
      fadd 0 0x3F800001#32 0x33800000#32 = 0x3F800002#32 := by decide

/-- N8, N9: invalid operations give a quiet NaN, whichever it is. -/
theorem test_invalid (d : Nat) :
    isQNaN (fmul d 0x00000000#32 0x7F800000#32) = true ∧
      isQNaN (fadd d 0x7F800000#32 0xFF800000#32) = true :=
  ⟨isQNaN_quietNaN d, isQNaN_quietNaN d⟩

/-- R65: one pattern of each class. -/
theorem test_classes :
    classify 0x80000000#32 = .zero ∧ classify 0x007FFFFF#32 = .subnormal ∧
      classify 0x00800000#32 = .normal ∧ classify 0xFF800000#32 = .infinity ∧
      classify 0x7FC00000#32 = .quietNaN ∧ classify 0x7F800001#32 = .signallingNaN := by decide

/-! ### Commands -/

/-- BIQUAD, table B5, call 2: YOUT 0.625, DL0 0.5, DL1 −0.15625. -/
theorem test_biquad_b5_call2 :
    outputs .biquad (core 0x00000000#32 0x3F200000#32 0x3E400000#32
      0xBF000000#32 0x3E800000#32 0x3E800000#32 0x3F000000#32 0x3E800000#32) =
      some (0x3F200000#32, 0x3F000000#32, 0xBE200000#32) := by decide

/-- BIQUAD, vector B10: left association of `b1*x - a0*y + dl1`. -/
theorem test_biquad_left_association :
    outputs .biquad (core 0x3F800000#32 0x00000000#32 0x33800000#32
      0xB3800000#32 0x00000000#32 0x3F800000#32 0x3F800000#32 0x00000000#32) =
      some (0x3F800000#32, 0x3F800000#32, 0x00000000#32) := by decide

/-- AP1, L1-1 call 2 with DL1 = 0x12345678 (A1): YOUT 0.75, DL0 −0.75, DL1 untouched. -/
theorem test_ap1_source_example :
    outputs .ap1 (core 0x00000000#32 0x3FC00000#32 0x12345678#32 0x3F000000#32 0#32 0#32 0#32 0#32) =
      some (0x3F400000#32, 0xBF400000#32, 0x12345678#32) := by decide

/-- AP1, vector A3: the zero fixed point keeps +0 for b < 0. -/
theorem test_ap1_zero_fixed_point :
    outputs .ap1 (core 0#32 0#32 0#32 0xBF000000#32 0#32 0#32 0#32 0#32) =
      some (0x00000000#32, 0x00000000#32, 0x00000000#32) := by decide

/-- AP2, vector P2: DL1 takes the old DL0. -/
theorem test_ap2_old_dl0 :
    outputs .ap2 (core 0#32 0x3F800000#32 0x40000000#32 0x3F000000#32 0x3E800000#32 0#32 0#32 0#32) =
      some (0x40500000#32, 0xBFA00000#32, 0x3F800000#32) := by decide

/-- AP2, table P1, call 5. -/
theorem test_ap2_p1_call5 :
    outputs .ap2 (core 0#32 0xBDF00000#32 0xBE600000#32 0x3F000000#32 0xBE800000#32 0#32 0#32 0#32) =
      some (0xBE990000#32, 0x3DA40000#32, 0xBDF00000#32) := by decide

/-- DCBLK, vector D5: x = −0 is copied bit for bit. -/
theorem test_dcblk_negative_zero :
    outputs .dcblk (core 0x80000000#32 0#32 0#32 0x3F000000#32 0#32 0#32 0#32 0#32) =
      some (0x00000000#32, 0x80000000#32, 0x00000000#32) := by decide

/-- DCBLK, vector D2, sample 3: b = 0x3F7EB852, YOUT = 0x3F7D7247. -/
theorem test_dcblk_d2_sample3 :
    outputs .dcblk (core 0x3F800000#32 0x3F800000#32 0x3F7EB852#32 0x3F7EB852#32 0#32 0#32 0#32 0#32) =
      some (0x3F7D7247#32, 0x3F800000#32, 0x3F7D7247#32) := by decide

/-! ### Host accesses (E1 to E18) -/

/-- E2: an illegal word sets ILLCMD and leaves YOUT. -/
theorem test_illegal_command :
    (nextOf (step (withPort State.reset [hostWriteAt 0x00#6 0x00000004#32]))).map
      (fun t => (statusWord t, t.yout, t.events)) =
      some (0x00000001#32, 0x00000000#32, [.illegalCommand]) := by decide

/-- E7, E8: only bit 0 clears ILLCMD. -/
theorem test_status_clear :
    (nextOf (step (withPort { State.reset with illcmd := true } [hostWriteAt 0x04#6 0xFFFFFFFE#32]))).map
        State.illcmd = some true ∧
      (nextOf (step (withPort { State.reset with illcmd := true } [hostWriteAt 0x04#6 0x00000001#32]))).map
        State.illcmd = some false := by decide

/-- E10: a write of YOUT is ignored. -/
theorem test_yout_write_ignored :
    (nextOf (step (withPort { State.reset with yout := 0x3F000000#32 }
      [hostWriteAt 0x0C#6 0x3F800000#32]))).map State.yout = some 0x3F000000#32 := by decide

/-- E12, E13, E14: bus errors. -/
theorem test_bus_errors :
    faultOf (step (withPort State.reset [hostReadAt 0x0A#6])) = some (.busError 0x0A#6) ∧
      faultOf (step (withPort State.reset [hostWriteAt 0x3C#6 0#32])) = some (.busError 0x3C#6) ∧
      faultOf (step (withPort State.reset [{ width := .w8, off := 0x00#6, dir := .write 0#32 }])) =
        some (.busError 0x00#6) := by decide

/-- E16: AP1 runs with DL1 never written. -/
theorem test_ap1_without_dl1 :
    (nextOf (strictStep (withPort { core 0#32 0#32 0#32 0#32 0#32 0#32 0#32 0#32 with
      written := { allWritten with dl1 := false } } [hostWriteAt 0x00#6 1#32]))).isSome = true := by
  decide

/-- E17: with DL0 never written the strict model faults Uninit(DL0), and the step records it. -/
theorem test_ap1_without_dl0 :
    let s := withPort { core 0#32 0#32 0#32 0#32 0#32 0#32 0#32 0#32 with
      written := { allWritten with dl0 := false } } [hostWriteAt 0x00#6 1#32]
    faultOf (strictStep s) = some (.uninit .dl0) ∧
      (nextOf (step s)).map State.events = some [.uninit .dl0] := by decide

/-- R63: `WR DL0, 1.5` is `(W, 0x10, 0x3FC00000)`, and R61: 0.1 is refused. -/
theorem test_transactions :
    (Prim.wr (.data .dl0) (.decimal false 15 1)).transaction [] =
        .ok (hostWriteAt 0x10#6 0x3FC00000#32) ∧
      decimalWord true 0 0 = some 0x80000000#32 ∧ decimalWord false 1 1 = none := by decide

/-- R61: words of a line, and a mnemonic in any case. -/
theorem test_words_of_a_line :
    tokens ['S', ' ', 'a', ',', 'b', ' ', ';', 'c'] = [['S'], ['a'], [','], ['b']] ∧
      parseCommand ['a', 'P', '2'] = some .ap2 := by decide

/-- R61: an inexact decimal is refused in the text, and a script that holds one stops before its first
access, here a read that the strict model faults on. -/
theorem test_inexact_decimal_refused :
    parseValue ['0', '.', '1'] = none ∧ parseValue ['1', '.', '5'] = some (.decimal false 15 1) ∧
      (match (Script.line (.rd (.data .xin) "a")
          (.line (.wr (.data .k0) (.decimal false 1 1)) .done)).run strictStep 0 [] State.reset with
        | .ok _ => none
        | .error e => some e) = some (.inexactDecimal false 1 1) := by decide

/-- R123, R31: an observation shows no word for a register at ⊥. -/
theorem test_observation_at_reset :
    (observe State.reset).data.map Prod.snd = List.replicate 9 none ∧
      (observe (core 7#32 0#32 0#32 0#32 0#32 0#32 0#32 0#32)).data.head? = some (.xin, some 7#32) := by
  decide

/-! ### Witnesses: hypotheses of the statements that something meets -/

/-- A working core: XIN 1.0, zero delay line, identity BIQUAD coefficients. -/
def identityCore (x : Word) : State := core x 0#32 0#32 0#32 0#32 0x3F800000#32 0#32 0#32

theorem witness_DecodeAcceptsExactlyTheFourWords :
    decode 0x00000003#32 = .ok .dcblk ∧ legalCommand 0x00000003#32 = true := by decide

theorem witness_ExecuteFollowsTheCommandWord :
    (4#32 : Word).extractLsb' 2 30 ≠ 0#30 ∧ (3#32 : Word).extractLsb' 2 30 = 0#30 ∧
      (0#32 : Word).extractLsb' 0 2 = 0#2 ∧ (1#32 : Word).extractLsb' 0 2 = 1#2 ∧
      (2#32 : Word).extractLsb' 0 2 = 2#2 ∧ (3#32 : Word).extractLsb' 0 2 = 3#2 := by decide

theorem witness_StepRunsTheDecodedCommand :
    (withPort State.reset [hostWriteAt 0x00#6 3#32]).port =
        hostRequest 0 (hostWriteAt 0x00#6 3#32) :: [] ∧
      decode 3#32 = .ok .dcblk ∧ decodeTableWord 32 3 = some .dcblk := by decide

theorem witness_IdleCoreKeepsItsState : State.reset.port = [] := rfl

theorem witness_BiquadAp2DcblkFrame :
    (Instr.dcblk, [DataReg.xin, .dl0, .dl1, .k0]) ∈
        [(Instr.biquad, [DataReg.xin, .dl0, .dl1, .k0, .k1, .k2, .k3, .k4]),
          (.ap2, [.xin, .dl0, .dl1, .k0, .k1]), (.dcblk, [.xin, .dl0, .dl1, .k0])] ∧
      ∃ t, exec .dcblk (identityCore 0x3F800000#32) = .next t := ⟨by decide, _, rfl⟩

theorem witness_Ap1Frame : ∃ t, exec .ap1 State.reset = .next t := ⟨_, rfl⟩

/-- For each command two states that differ, and agree on the registers it reads. -/
theorem witness_ResultsDependOnlyOnOperands :
    let s := core 0x3F800000#32 0#32 1#32 0x3F000000#32 1#32 2#32 3#32 4#32
    let sAp1 := core 0x3F800000#32 0#32 9#32 0x3F000000#32 5#32 6#32 7#32 8#32
    let sDcblk := core 0x3F800000#32 0#32 1#32 0x3F000000#32 5#32 6#32 7#32 8#32
    let sAp2 := core 0x3F800000#32 0#32 1#32 0x3F000000#32 1#32 6#32 7#32 8#32
    let sBiquad := { s with yout := 9#32, illcmd := true, draws := 3 }
    ∀ p ∈ [(Instr.biquad, sBiquad), (.ap1, sAp1), (.ap2, sAp2), (.dcblk, sDcblk)],
      s ≠ p.2 ∧ s.xin = p.2.xin ∧ s.dl0 = p.2.dl0 ∧ s.k0 = p.2.k0 ∧
        (p.1 ≠ .ap1 → s.dl1 = p.2.dl1) ∧ (p.1 = .biquad ∨ p.1 = .ap2 → s.k1 = p.2.k1) ∧
        (p.1 = .biquad → s.k2 = p.2.k2 ∧ s.k3 = p.2.k3 ∧ s.k4 = p.2.k4) ∧
        (nextOf (exec p.1 s)).isSome = true ∧ (nextOf (exec p.1 p.2)).isSome = true := by decide

theorem witness_NaNOperandsGiveQuietNaNs :
    isNaN 0x7F800001#32 = true ∧ isNaN 0xFFFFFFFF#32 = true ∧
      ∀ d, isNaN (fadd d 0x7F800001#32 0#32) = true ∧ isNaN (fsub d 0x7F800001#32 0#32) = true ∧
        isNaN (fmul d 0x7F800001#32 0#32) = true :=
  ⟨by decide, by decide, fun d => ⟨isNaN_quietNaN d, isNaN_quietNaN d, isNaN_quietNaN d⟩⟩

/-- A tie: 1.0 + 2^-24 lies halfway between 1.0 and 0x3F800001. -/
theorem witness_AdditionIsCorrectlyRounded :
    let a := 0x3F800000#32
    let b := 0x33800000#32
    let w := 0x3F800001#32
    isFinite a = true ∧ isFinite b = true ∧ isFinite (fadd 0 a b) = true ∧ isFinite w = true ∧
      valOf w - (valOf a + valOf b) = -(valOf (fadd 0 a b) - (valOf a + valOf b)) ∧
      valOf w ≠ valOf (fadd 0 a b) := by decide

/-- A tie: 0.5 times the least subnormal lies halfway between +0 and that subnormal. -/
theorem witness_MultiplicationIsCorrectlyRounded :
    let a := 0x3F000000#32
    let b := 0x00000001#32
    let w := 0x00000001#32
    isFinite a = true ∧ isFinite b = true ∧ isFinite (fmul 0 a b) = true ∧ isFinite w = true ∧
      valOf w * 2 ^ 149 - valOf a * valOf b =
        -(valOf (fmul 0 a b) * 2 ^ 149 - valOf a * valOf b) ∧
      valOf w ≠ valOf (fmul 0 a b) := by decide

/-- Both sides of the halfway point, for sums and for products. -/
theorem witness_OverflowExactlyFromTheHalfwayPoint :
    valOf 0x7F7FFFFF#32 + valOf 0x73000000#32 = 2 ^ 277 - 2 ^ 252 ∧
      valOf 0x7F7FFFFF#32 + valOf 0x72FFFFFF#32 < 2 ^ 277 - 2 ^ 252 ∧
      0 < valOf 0x7F7FFFFF#32 + valOf 0x72FFFFFF#32 ∧
      (2 ^ 277 - 2 ^ 252) * 2 ^ 149 ≤ valOf 0x40000000#32 * valOf 0x7F7FFFFF#32 ∧
      valOf 0x3F800000#32 * valOf 0x7F7FFFFF#32 < (2 ^ 277 - 2 ^ 252) * 2 ^ 149 ∧
      isFinite 0x7F7FFFFF#32 = true ∧ isFinite 0x73000000#32 = true ∧
      isFinite 0x72FFFFFF#32 = true ∧ isFinite 0x40000000#32 = true ∧
      isFinite 0x3F800000#32 = true := by decide

theorem witness_SignsOfFiniteResults :
    isFinite 0x3FC00000#32 = true ∧ isFinite 0xBFC00000#32 = true ∧ isFinite 0x80000000#32 = true ∧
      valOf 0x3FC00000#32 + valOf 0xBFC00000#32 = 0 ∧
      valOf 0x80000000#32 + valOf 0x80000000#32 = 0 ∧
      valOf 0x3FC00000#32 + valOf 0x3FC00000#32 ≠ 0 := by decide

theorem witness_InfinityArithmetic :
    isInf 0x7F800000#32 = true ∧ isInf 0xFF800000#32 = true ∧
      signOf 0x7F800000#32 ≠ signOf 0xFF800000#32 ∧ isFinite 0x3F800000#32 = true ∧
      isZero 0x80000000#32 = true ∧ isZero 0x00000001#32 = false ∧ isNaN 0x00000001#32 = false := by
  decide

theorem witness_SubtractionIsAdditionOfTheNegation :
    isFinite 0x80000000#32 = true ∧ isInf 0xFF800000#32 = true := by decide

theorem witness_BiquadIdentityPassthrough :
    let s := identityCore 0xC0200000#32
    s.k2 = 0x3F800000#32 ∧ isZero s.k0 = true ∧ isZero s.dl0 = true ∧ isZero s.dl1 = true ∧
      isFinite s.xin = true := by decide

theorem witness_BiquadIdentityLimits :
    (identityCore 0x80000000#32).xin = 0x80000000#32 ∧ isInf (identityCore 0x7F800000#32).xin = true ∧
      isNaN (identityCore 0x7FC00000#32).xin = true ∧ (identityCore 0x7FC00000#32).k2 = 0x3F800000#32 ∧
      (identityCore 0x7FC00000#32).dl0 = 0#32 := by decide

/-- Vector B4: K = (0.5, 0.25, 1, 1, −1). -/
theorem witness_BiquadZeroSigns :
    let s := core 0#32 0#32 0#32 0x3F000000#32 0x3E800000#32 0x3F800000#32 0x3F800000#32 0xBF800000#32
    s.xin = 0#32 ∧ s.dl0 = 0#32 ∧ s.dl1 = 0#32 ∧ isFinite s.k0 = true ∧ isFinite s.k1 = true ∧
      isFinite s.k2 = true ∧ isFinite s.k3 = true ∧ isFinite s.k4 = true ∧ signOf s.k4 = true ∧
      signOf s.k1 = false := by decide

/-- For each command, with registers it does not read that are no zeros and not finite. -/
theorem witness_ZeroInputZeroStateFixedPoint :
    ∀ p ∈ [(Instr.biquad, core 0x80000000#32 0#32 0x80000000#32 0x3F000000#32 0x7F7FFFFF#32 0#32 1#32
          0xBF800000#32),
        (.ap1, core 0x80000000#32 0#32 0x12345678#32 0x3F000000#32 0x7F800000#32 0#32 0#32 0#32),
        (.ap2, core 0#32 0#32 0x80000000#32 0x3F000000#32 0x3E800000#32 0x7F800000#32 0#32 0#32),
        (.dcblk, core 0#32 0#32 0#32 0x3F7EB852#32 0x7F800000#32 0#32 0#32 0x7FC00000#32)],
      isZero p.2.xin = true ∧ isZero p.2.dl0 = true ∧ isFinite p.2.k0 = true ∧
        (p.1 ≠ .ap1 → isZero p.2.dl1 = true) ∧
        (p.1 = .biquad ∨ p.1 = .ap2 → isFinite p.2.k1 = true) ∧
        (p.1 = .biquad → isFinite p.2.k2 = true ∧ isFinite p.2.k3 = true ∧ isFinite p.2.k4 = true) := by
  decide

/-- One bad access for each ground, at the ends of its range, a good one at each end of the map, and a
step that faults. -/
theorem witness_BusErrorExactlyOnBadAccesses :
    (badAccess { width := .w64, off := 0x00#6, dir := .read } ∧ badAccess (hostReadAt 0x01#6) ∧
        badAccess (hostReadAt 0x2C#6) ∧ badAccess (hostReadAt 0x3C#6) ∧
        ¬ badAccess (hostReadAt 0x00#6) ∧ ¬ badAccess (hostReadAt 0x28#6)) ∧
      (withPort State.reset [hostReadAt 0x2C#6]).port = hostRequest 0 (hostReadAt 0x2C#6) :: [] ∧
      faultOf (step (withPort State.reset [hostReadAt 0x2C#6])) = some (.busError 0x2C#6) := by
  simp only [badAccess]; decide

theorem witness_HostReadReturnsTheRegister :
    (core 1#32 0#32 0#32 0#32 0#32 0#32 0#32 0#32).written = allWritten ∧
      State.reset.isWritten .xin = false ∧ State.reset.isWritten .k4 = false ∧
      (0x0A#6 : BitVec 6).toNat % 4 ≠ 0 ∧ 0x2C ≤ (0x2C#6 : BitVec 6).toNat ∧ Width.w16 ≠ .w32 ∧
      (nextOf (step (withPort State.reset [hostReadAt 0x28#6]))).isSome = true := by decide

theorem witness_HostWriteEffects :
    (0x3F#6 : BitVec 6).toNat % 4 ≠ 0 ∧ 0x2C ≤ (0x3C#6 : BitVec 6).toNat ∧ Width.w64 ≠ .w32 ∧
      (nextOf (step (withPort State.reset [hostWriteAt 0x28#6 7#32]))).map State.k4 = some 7#32 := by
  decide

theorem witness_IllegalCommandOnlySetsIllcmd :
    (0x80000000#32 : Word).extractLsb' 2 30 ≠ 0#30 ∧ (4#32 : Word).extractLsb' 2 30 ≠ 0#30 ∧
      (withPort State.reset [hostWriteAt 0x00#6 4#32]).port =
        hostRequest 0 (hostWriteAt 0x00#6 4#32) :: [] := by decide

/-- ILLCMD rises, and falls by a clear and by a platform reset. -/
theorem witness_IllcmdIsSticky :
    (nextOf (step (withPort State.reset [hostWriteAt 0x00#6 4#32]))).map State.illcmd = some true ∧
      (nextOf (step (withPort { State.reset with illcmd := true } [hostWriteAt 0x04#6 1#32]))).map
        State.illcmd = some false ∧
      (nextOf (step { State.reset with
        illcmd := true, port := [{ agent := 0, act := .platformReset }] })).map State.illcmd =
          some false := by decide

/-- XIN changes by a host write, and YOUT, DL0 and DL1 by a command. -/
theorem witness_RegistersChangeOnlyByTheirWriters :
    (nextOf (step (withPort State.reset [hostWriteAt 0x08#6 5#32]))).map State.xin = some 5#32 ∧
      (nextOf (step (withPort (core 0x3F800000#32 0#32 0#32 0#32 0#32 0#32 0#32 0#32)
        [hostWriteAt 0x00#6 3#32]))).map (fun t => (t.yout, t.dl0, t.dl1)) =
          some (0x3F800000#32, 0x3F800000#32, 0x3F800000#32) := by decide

theorem witness_WriteThenReadReturnsTheWord :
    DataReg.k3 ≠ .yout ∧
      (withPort State.reset [hostWriteAt (offsetOf (.data .k3)) 7#32,
        hostReadAt (offsetOf (.data .k3))]).port =
          hostRequest 0 (hostWriteAt (offsetOf (.data .k3)) 7#32) ::
            hostRequest 0 (hostReadAt (offsetOf (.data .k3))) :: [] := by decide

theorem witness_CommandThenReadsReturnItsResults :
    decode 2#32 = .ok .ap2 ∧ (nextOf (exec .ap2 (identityCore 1#32))).isSome = true ∧
      (withPort (identityCore 1#32) [hostWriteAt 0x00#6 2#32, hostReadAt 0x0C#6, hostReadAt 0x10#6,
        hostReadAt 0x14#6]).port = hostRequest 0 (hostWriteAt 0x00#6 2#32) ::
          hostRequest 0 (hostReadAt 0x0C#6) :: hostRequest 0 (hostReadAt 0x10#6) ::
          hostRequest 0 (hostReadAt 0x14#6) :: [] := by decide

theorem witness_PlatformResetLeavesRegistersUnwritten :
    ({ identityCore 1#32 with port := [{ agent := 3, act := .platformReset }] } : State).port =
      { agent := 3, act := .platformReset } :: [] := rfl

/-- Operands all written; and only the last of BIQUAD's, K4, at ⊥. -/
theorem witness_StrictCommandFaultsOnUnwrittenOperands :
    let reads := [DataReg.xin, .dl0, .dl1, .k0, .k1, .k2, .k3, .k4]
    let s := withPort { identityCore 1#32 with written := { allWritten with k4 := false } }
      [hostWriteAt 0x00#6 (encode .biquad)]
    (Instr.biquad, reads) ∈ [(Instr.biquad, [DataReg.xin, .dl0, .dl1, .k0, .k1, .k2, .k3, .k4]),
        (.ap1, [.xin, .dl0, .k0]), (.ap2, [.xin, .dl0, .dl1, .k0, .k1]),
        (.dcblk, [.xin, .dl0, .dl1, .k0])] ∧
      (∀ r ∈ reads, (identityCore 1#32).isWritten r = true) ∧
      (∃ r ∈ reads, s.isWritten r = false) ∧
      s.port = hostRequest 0 (hostWriteAt 0x00#6 (encode .biquad)) :: [] ∧
      faultOf (strictStep s) = some (.uninit .k4) := by decide

/-- An access for each rank of R98: width, alignment, reserved slot, RSVD, Uninit, none. -/
theorem witness_EventPriority :
    Width.w8 ≠ .w32 ∧ (hostReadAt 0x2D#6).off.toNat % 4 ≠ 0 ∧
      ((hostReadAt 0x2C#6).width = .w32 ∧ (hostReadAt 0x2C#6).off.toNat % 4 = 0 ∧
        0x2C ≤ (hostReadAt 0x2C#6).off.toNat) ∧
      (7#32 : Word).extractLsb' 2 30 ≠ 0#30 ∧ decode 3#32 = .ok .dcblk ∧
      (∃ r ∈ operandsRead .dcblk, State.reset.isWritten r = false) ∧
      (∀ r ∈ operandsRead .dcblk, (identityCore 1#32).isWritten r = true) ∧
      (withPort State.reset [hostWriteAt 0x00#6 3#32]).port =
        hostRequest 0 (hostWriteAt 0x00#6 3#32) :: [] := by decide

theorem witness_StepKeepsOutputBacked :
    noUninit (identityCore 1#32) = true ∧ (identityCore 1#32).written.xin = true ∧
      OutputBacked (identityCore 1#32) ∧
      (nextOf (step (withPort (identityCore 1#32) [hostWriteAt 0x00#6 0#32]))).isSome = true :=
  ⟨by decide, by decide, fun _ _ => ⟨rfl, rfl, rfl⟩, by decide⟩

theorem witness_StepKeepsIllegalRecorded :
    IllegalRecorded { State.reset with illcmd := true, events := [.illegalCommand] } ∧
      (nextOf (step { withPort State.reset [hostWriteAt 0x00#6 0#32] with
        illcmd := true, events := [.illegalCommand] })).isSome = true :=
  ⟨fun _ => by decide, by decide⟩

/-- Two states that differ in the word behind a ⊥; a strict step from them that answers, and one that
faults. -/
theorem witness_UnwrittenContentsNeverShow :
    let s : State := { identityCore 1#32 with written := { allWritten with dl1 := false } }
    let t : State := { s with dl1 := 9#32 }
    s ≠ t ∧ sameButUnwritten (withPort s [hostWriteAt 0x00#6 1#32]) (withPort t [hostWriteAt 0x00#6 1#32]) ∧
      (nextOf (strictStep (withPort s [hostWriteAt 0x00#6 1#32]))).isSome = true ∧
      faultOf (strictStep (withPort s [hostWriteAt 0x00#6 2#32])) = some (.uninit .dl1) := by
  refine ⟨by decide, ⟨rfl, rfl, rfl, rfl, rfl, rfl, fun r h => ?_⟩, by decide, by decide⟩
  cases r <;> first | rfl | exact absurd h (by decide)

theorem witness_PortOrderIsKept :
    (nextOf (step (withPort State.reset [hostReadAt 0x04#6, hostReadAt 0x00#6]))).isSome = true ∧
      (withPort State.reset [hostReadAt 0x04#6, hostReadAt 0x00#6]).port =
        hostRequest 0 (hostReadAt 0x04#6) :: [hostRequest 0 (hostReadAt 0x00#6)] := by decide

theorem witness_ContextSwitchIsolatesInstances :
    let c : Context := { k0 := 1#32, k1 := 2#32, k2 := 3#32, k3 := 4#32, k4 := 5#32, dl0 := 6#32, dl1 := 7#32 }
    let s₁ : State := { State.reset with port := contextSequence 1 c 8#32 .ap2 ++ [] }
    let s₂ : State := { identityCore 9#32 with port := contextSequence 1 c 8#32 .ap2 ++ [] }
    s₁.port = contextSequence 1 c 8#32 .ap2 ++ [] ∧ s₂.port = contextSequence 1 c 8#32 .ap2 ++ [] ∧
      s₁.k2 ≠ s₂.k2 := by decide

theorem witness_WindowAddressMap : route (Config.filtBase + 0x40) = none := by
  simp [route, Config.windowSize]

theorem witness_DecimalsAssembleExactly :
    decimalWord false 15 1 = some 0x3FC00000#32 ∧ isFinite 0x3FC00000#32 = true ∧
      magOf 0x3FC00000#32 * 10 ^ 1 = 15 * 2 ^ 149 := by decide

theorem witness_InexactDecimalsAreRefused :
    Prim.wr (.data .k0) (.decimal false 1 1) ∈
        (Script.loop 2 (.line (.lddc (.decimal false 1 1)) .done) .done).expand ∧
      decimalWord false 1 1 = none := by decide

theorem witness_ScriptStepRunsOneSample :
    (nextOf (exec .dcblk ((identityCore 1#32).set .xin 0x3F800000#32))).isSome = true := by decide

end Sys2Proof.Tests
end

section
/-! SUPPORT. State family: rules of the state operations and of the effects of a request. -/

namespace Sys2Proof.Machine

variable (s : State) (r : DataReg)

/-! ### Marks and events -/

@[simp] theorem setPort_isWritten (p : List Request) :
    ({ s with port := p } : State).isWritten r = s.isWritten r := rfl

theorem isWritten_congr {s t : State} (h : s.written = t.written) (r : DataReg) :
    s.isWritten r = t.isWritten r := by
  cases r <;> simp [h]

theorem set_written_congr {s t : State} (h : s.written = t.written) (r : DataReg) (v : Word) :
    (s.set r v).written = (t.set r v).written := by
  cases r <;> simp [State.set, h]

theorem noteUninit_of_unwritten {rs : List DataReg} {r : DataReg}
    (h : firstUnwritten rs s = some r) : noteUninit rs s = s.note (.uninit r) := by
  simp [noteUninit, h]

theorem noUninit_congr {s t : State} (h : s.events = t.events) : noUninit s = noUninit t := by
  simp [noUninit, h]

theorem noUninit_note (e : Event) : noUninit (s.note e) = (noUninit s && !e.isUninit) := by
  simp [noUninit]

/-- After a read of registers there is still no Uninit exactly where there was none before and all of
them have been written (R31). -/
theorem noUninit_noteUninit (rs : List DataReg) :
    noUninit (noteUninit rs s) = true ↔ noUninit s = true ∧ ∀ r ∈ rs, s.isWritten r = true := by
  rw [← firstUnwritten_eq_none]
  obtain ⟨h, e⟩ | ⟨r, h, e⟩ := noteUninit_cases s rs
  · simp [h, e]
  · simp [h, e, noUninit_note, Event.isUninit]

/-! ### What a write of STATUS and a host read leave unchanged -/

@[simp] theorem writeStatus_get (v : Word) : (writeStatus v s).get r = s.get r := by
  unfold writeStatus; split <;> simp

@[simp] theorem writeStatus_written (v : Word) : (writeStatus v s).written = s.written := by
  unfold writeStatus; split <;> rfl

@[simp] theorem writeStatus_events (v : Word) : (writeStatus v s).events = s.events := by
  unfold writeStatus; split <;> rfl

/-- A write of STATUS never sets ILLCMD (R27). -/
theorem illcmd_of_writeStatus {v : Word} (h : (writeStatus v s).illcmd = true) :
    s.illcmd = true := by
  unfold writeStatus at h
  split at h
  · simp at h
  · exact h

@[simp] theorem hostRead_get (agent : Nat) (q : RegName) : (hostRead agent q s).get r = s.get r := by
  simp [hostRead]

@[simp] theorem hostRead_written (agent : Nat) (q : RegName) :
    (hostRead agent q s).written = s.written := by
  simp [hostRead]

@[simp] theorem hostRead_illcmd (agent : Nat) (q : RegName) :
    (hostRead agent q s).illcmd = s.illcmd := by
  simp [hostRead]

@[simp] theorem hostRead_events (agent : Nat) (q : RegName) :
    (hostRead agent q s).events = (noteUninit (readsOf q) s).events := by
  simp [hostRead]

/-! ### The operands of the commands (R56) -/

theorem mem_operandsWritten (i : Instr) :
    r ∈ operandsWritten i ↔ r = .yout ∨ r = .dl0 ∨ (r = .dl1 ∧ i ≠ .ap1) := by
  cases i <;> simp [operandsWritten]

/-- XIN, DL0 and K0 are read by every command. -/
theorem xin_dl0_k0_mem_operandsRead (i : Instr) :
    .xin ∈ operandsRead i ∧ .dl0 ∈ operandsRead i ∧ .k0 ∈ operandsRead i := by
  cases i <;> decide

/-- A command keeps the word of every register that it does not write. -/
theorem afterCommand_get_of_not_mem {i : Instr} {r : DataReg} (h : r ∉ operandsWritten i) :
    (afterCommand i s).get r = s.get r := by
  rw [mem_operandsWritten] at h
  cases r with
  | yout => simp at h
  | dl0 => simp at h
  | dl1 =>
    obtain rfl : i = .ap1 := by simpa using h
    simp
  | _ => simp

theorem afterCommand_events_of_written {i : Instr}
    (h : ∀ r ∈ operandsRead i, s.isWritten r = true) : (afterCommand i s).events = s.events := by
  rw [afterCommand_events, noteUninit_of_written s _ h]

theorem afterCommand_events_of_unwritten {i : Instr} {r : DataReg}
    (h : firstUnwritten (operandsRead i) s = some r) :
    (afterCommand i s).events = s.events ++ [.uninit r] := by
  rw [afterCommand_events, noteUninit_of_unwritten s h, note_events]

theorem decode_encode (i : Instr) : decode (encode i) = .ok i := by
  cases i <;> decide

/-! ### The step of one host access -/

theorem step_hostWrite {q : RegName} {agent : Nat} {v : Word} {rest : List Request}
    (h : s.port = hostRequest agent (hostWriteAt (offsetOf q) v) :: rest) :
    step s = hostWrite q v { s with port := rest } := by
  rw [step_request s h]
  exact hostAccess_write _ agent q v

theorem step_hostRead {q : RegName} {agent : Nat} {rest : List Request}
    (h : s.port = hostRequest agent (hostReadAt (offsetOf q)) :: rest) :
    step s = .next (hostRead agent q { s with port := rest }) := by
  rw [step_request s h]
  exact hostAccess_read _ agent q

/-- A read of a data register that has been written replies its word and records nothing (R40). -/
theorem step_hostRead_of_written {d : DataReg} {agent : Nat} {rest : List Request}
    (h : s.port = hostRequest agent (hostReadAt (offsetOf (.data d))) :: rest)
    (hd : s.isWritten d = true) :
    step s = .next (({ s with port := rest } : State).reply agent (s.get d)) := by
  rw [step_hostRead s h, hostRead, noteUninit_of_written]
  · rfl
  · simpa [readsOf] using hd

theorem step_command {agent : Nat} {v : Word} {i : Instr} {rest : List Request}
    (h : s.port = hostRequest agent (hostWriteAt (offsetOf .cmd) v) :: rest)
    (hv : decode v = .ok i) : step s = .next (afterCommand i { s with port := rest }) := by
  rw [step_hostWrite s h]
  simp [hostWrite, execute, hv, exec_eq]

theorem runOn_of_next {s t : State} (h : step s = .next t) : runOn s = t := by
  simp [runOn, h]

theorem runSteps_two {s t u : State} (h₁ : step s = .next t) (h₂ : step t = .next u) :
    runSteps 2 s = u := by
  simp [runSteps, runOn_of_next h₁, runOn_of_next h₂]

/-! ### What an effect can do to the registers, the events and ILLCMD -/

/-- R42: an effect that changes a data register's word is one of the register's writers. -/
theorem effect_get_ne {s t : State} {q : Request} {r : DataReg} (h : Effect s q t)
    (hne : t.get r ≠ s.get r) :
    q.act = .platformReset ∨
      (r ≠ .yout ∧ ∃ v, q.act = .access (hostWriteAt (offsetOf (.data r)) v)) ∨
      ∃ v i, q.act = .access (hostWriteAt (offsetOf .cmd) v) ∧ decode v = .ok i ∧
        r ∈ operandsWritten i := by
  cases h with
  | read => simp at hne
  | command agent v i hv =>
    have hr : r ∈ operandsWritten i := by
      by_contra hr
      exact hne (afterCommand_get_of_not_mem s hr)
    exact .inr (.inr ⟨v, i, rfl, hv, hr⟩)
  | illegal => simp at hne
  | status => simp at hne
  | yout => simp at hne
  | data agent d v hd =>
    obtain rfl : d = r := by
      by_contra hdr
      exact hne (by rw [get_set, if_neg hdr])
    exact .inr (.inl ⟨hd, v, rfl⟩)
  | reset => exact .inl rfl

/-- The record of events only grows. -/
theorem effect_events_grow {s t : State} {q : Request} (h : Effect s q t) :
    s.events <+: t.events := by
  have note (rs : List DataReg) : s.events <+: (noteUninit rs s).events := by
    obtain ⟨_, e⟩ | ⟨r, _, e⟩ := noteUninit_cases s rs <;> simp [e]
  cases h with
  | read => simpa using note _
  | command => simpa using note _
  | _ => simp

/-- ILLCMD rises only with a recorded illegal command (R96). -/
theorem effect_illcmd {s t : State} {q : Request} (h : Effect s q t) (ht : t.illcmd = true) :
    s.illcmd = true ∨ .illegalCommand ∈ t.events := by
  cases h with
  | illegal => exact .inr (by simp)
  | status => exact .inl (illcmd_of_writeStatus s ht)
  | reset => simp at ht
  | _ => exact .inl (by simpa using ht)

end Sys2Proof.Machine
end

section
/-! SUPPORT. State family: the two invariants are kept by the effect of a request. -/

namespace Sys2Proof.Machine

variable {s t : State} {q : Request}

theorem effect_keeps_illegalRecorded (hs : IllegalRecorded s) (h : Effect s q t) :
    IllegalRecorded t := by
  intro ht
  obtain hill | hmem := effect_illcmd h ht
  · exact (effect_events_grow h).subset (hs hill)
  · exact hmem

theorem OutputBacked.of_written_eq (hs : OutputBacked s)
    (hu : noUninit t = true → noUninit s = true) (hw : t.written = s.written) : OutputBacked t := by
  intro htu hty
  rw [hw] at hty ⊢
  exact hs (hu htu) hty

/-- A command's output sample rests on its own operands, whatever held before it. -/
theorem afterCommand_outputBacked (i : Instr) : OutputBacked (afterCommand i s) := by
  intro hu _
  rw [noUninit_congr (afterCommand_events s i), noUninit_noteUninit] at hu
  obtain ⟨-, hread⟩ := hu
  obtain ⟨hx, hd, hk⟩ := xin_dl0_k0_mem_operandsRead i
  rw [afterCommand_written]
  exact ⟨hread _ hx, rfl, hread _ hk⟩

theorem noUninit_of_events_grow (h : s.events <+: t.events) (ht : noUninit t = true) :
    noUninit s = true := by
  obtain ⟨es, he⟩ := h
  simp only [noUninit, ← he, List.any_append, Bool.not_or, Bool.and_eq_true] at ht ⊢
  exact ht.1

theorem effect_keeps_outputBacked (hs : OutputBacked s) (h : Effect s q t) : OutputBacked t := by
  have hu : noUninit t = true → noUninit s = true := noUninit_of_events_grow (effect_events_grow h)
  cases h with
  | read => exact hs.of_written_eq hu (by simp)
  | command agent v i => exact afterCommand_outputBacked i
  | illegal => exact hs.of_written_eq hu rfl
  | status => exact hs.of_written_eq hu (by simp)
  | yout => exact hs
  | data agent d v hd =>
    intro htu hty
    obtain ⟨hx, hd0, hk⟩ := hs (hu htu) (by simpa [hd] using hty)
    simp [hx, hd0, hk]
  | reset => intro _ hy; simp [Marks.none] at hy

end Sys2Proof.Machine
end

section
/-! SUPPORT. State family: the strict step (R31), and what it cannot see of registers at ⊥. -/

namespace Sys2Proof.Machine

variable {s t : State} {q : Request} {rest : List Request}

/-! ### The strict step by its cases -/

theorem strictStep_idle (h : s.port = []) : strictStep s = .next s := by
  simp [strictStep, h]

theorem strictStep_of_unwritten {r : DataReg} (h : s.port = q :: rest)
    (hr : firstUnwritten (requestReads q) s = some r) : strictStep s = .fault (.uninit r) := by
  simp [strictStep, h, hr]

theorem strictStep_of_written (h : s.port = q :: rest)
    (hr : firstUnwritten (requestReads q) s = none) : strictStep s = step s := by
  simp [strictStep, h, hr]

@[simp] theorem requestReads_hostRead (agent : Nat) (r : RegName) :
    requestReads ⟨agent, .access (hostReadAt (offsetOf r))⟩ = readsOf r := by
  simp [requestReads, hostReadAt, shapeOk]

theorem requestReads_command (agent : Nat) {v : Word} {i : Instr} (h : decode v = .ok i) :
    requestReads ⟨agent, .access (hostWriteAt (offsetOf .cmd) v)⟩ = operandsRead i := by
  simp [requestReads, hostWriteAt, shapeOk, h]

/-! ### A request's outcome by its effect -/

/-- Each effect is the outcome of its request. -/
theorem perform_of_effect (h : Effect s q t) : perform q s = .next t := by
  cases h with
  | read | status | yout | reset => simp [perform, hostWrite]
  | command agent v i hv => simp [perform, hostWrite, execute, hv, exec_eq]
  | illegal agent v hv => simp [perform, hostWrite, execute, decode, hv]
  | data agent d v hd => simp [perform, hostWrite_data s hd]

@[simp] theorem hostReadAt_wellFormed (r : RegName) :
    (hostReadAt (offsetOf r)).wellFormed = true := by
  simp [wellFormed_iff, hostReadAt, shapeOk]

@[simp] theorem hostWriteAt_wellFormed (r : RegName) (v : Word) :
    (hostWriteAt (offsetOf r) v).wellFormed = true := by
  simp [wellFormed_iff, hostWriteAt, shapeOk]

/-- A bus error is one from every state (R95). -/
theorem perform_illFormed {a : Access} (hq : q.act = .access a) (ha : a.wellFormed = false) :
    perform q s = .fault (.busError a.off) := by
  obtain ⟨agent, act⟩ := q
  obtain rfl : act = .access a := hq
  obtain ⟨-, e⟩ | ⟨r, rfl, -⟩ | ⟨r, v, rfl, -⟩ := hostAccess_cases s agent a
  · exact e
  · simp at ha
  · simp at ha

/-! ### `sameButUnwritten` is kept by every operation -/

namespace sameButUnwritten

variable (h : sameButUnwritten s t)
include h

theorem get_eq {r : DataReg} (hr : s.isWritten r = true) : s.get r = t.get r := by
  obtain ⟨-, -, -, -, -, -, hg⟩ := h
  exact hg r hr

theorem written_eq : s.written = t.written := by
  obtain ⟨-, hw, -⟩ := h
  exact hw

theorem port_eq : s.port = t.port := by
  obtain ⟨-, -, hp, -⟩ := h
  exact hp

theorem draws_eq : s.draws = t.draws := by
  obtain ⟨-, -, -, -, -, hd, -⟩ := h
  exact hd

theorem setPort_congr (p : List Request) :
    sameButUnwritten { s with port := p } { t with port := p } := by
  obtain ⟨hi, hw, -, hr, he, hd, hg⟩ := h
  exact ⟨hi, hw, rfl, hr, he, hd, hg⟩

theorem set_congr (r : DataReg) (v : Word) : sameButUnwritten (s.set r v) (t.set r v) := by
  obtain ⟨hi, hw, hp, hr, he, hd, hg⟩ := h
  refine ⟨by simpa, set_written_congr hw r v, by simpa, by simpa, by simpa, by simpa, fun q hq => ?_⟩
  rw [get_set, get_set]
  split
  · rfl
  next hne => exact hg q (by simpa [isWritten_set, hne] using hq)

theorem writeOutDl0_congr (y e : Word) :
    sameButUnwritten (writeOutDl0 y e s) (writeOutDl0 y e t) :=
  (h.set_congr .yout y).set_congr .dl0 e

theorem writeOutDl01_congr (y e f : Word) :
    sameButUnwritten (writeOutDl01 y e f s) (writeOutDl01 y e f t) :=
  ((h.set_congr .yout y).set_congr .dl0 e).set_congr .dl1 f

theorem advanceDraws_congr (n : Nat) : sameButUnwritten (s.advanceDraws n) (t.advanceDraws n) := by
  obtain ⟨hi, hw, hp, hr, he, hd, hg⟩ := h
  exact ⟨hi, hw, hp, hr, he, by simp [hd], hg⟩

theorem reply_congr (agent : Nat) (v : Word) :
    sameButUnwritten (s.reply agent v) (t.reply agent v) := by
  obtain ⟨hi, hw, hp, hr, he, hd, hg⟩ := h
  exact ⟨hi, hw, hp, by simp [hr], he, hd, hg⟩

theorem illegalCommand_congr : sameButUnwritten (illegalCommand s) (illegalCommand t) := by
  obtain ⟨-, hw, hp, hr, he, hd, hg⟩ := h
  exact ⟨rfl, hw, hp, hr, by simp [he], hd, hg⟩

theorem writeStatus_congr (v : Word) : sameButUnwritten (writeStatus v s) (writeStatus v t) := by
  obtain ⟨hi, hw, hp, hr, he, hd, hg⟩ := h
  unfold writeStatus
  split
  · exact ⟨rfl, hw, hp, hr, he, hd, hg⟩
  · exact ⟨hi, hw, hp, hr, he, hd, hg⟩

theorem platformReset_congr : sameButUnwritten (platformReset s) (platformReset t) := by
  obtain ⟨-, -, hp, hr, he, hd, -⟩ := h
  exact ⟨rfl, rfl, hp, hr, he, by simp [hd], fun q hq => by simp at hq⟩

theorem readWord_eq {r : RegName} (hr : ∀ d ∈ readsOf r, s.isWritten d = true) :
    readWord r s = readWord r t := by
  cases r with
  | cmd => rfl
  | status => obtain ⟨hi, -⟩ := h; simp [readWord, statusWord, hi]
  | data d => exact h.get_eq (hr d (by simp [readsOf]))

theorem noteUninit_congr {rs : List DataReg} (hrs : ∀ r ∈ rs, s.isWritten r = true) :
    sameButUnwritten (noteUninit rs s) (noteUninit rs t) := by
  rw [noteUninit_of_written s rs hrs, noteUninit_of_written t rs]
  · exact h
  · exact fun r hr => isWritten_congr h.written_eq r ▸ hrs r hr

theorem hostRead_congr (agent : Nat) {r : RegName} (hr : ∀ d ∈ readsOf r, s.isWritten d = true) :
    sameButUnwritten (hostRead agent r s) (hostRead agent r t) := by
  unfold hostRead
  rw [h.readWord_eq hr]
  exact (h.noteUninit_congr hr).reply_congr agent _

theorem afterCommand_congr {i : Instr} (hi : ∀ r ∈ operandsRead i, s.isWritten r = true) :
    sameButUnwritten (afterCommand i s) (afterCommand i t) := by
  have word : ∀ r ∈ operandsRead i, s.get r = t.get r := fun r hr => h.get_eq (hi r hr)
  have noted := h.noteUninit_congr hi
  cases i <;>
    simp only [operandsRead, List.mem_cons, List.not_mem_nil, or_false, forall_eq_or_imp, forall_eq,
      get_xin, get_dl0, get_dl1, get_k0, get_k1, get_k2, get_k3, get_k4] at word <;>
    simp only [afterCommand, h.draws_eq, word]
  case biquad => exact (noted.writeOutDl01_congr _ _ _).advanceDraws_congr 9
  case ap1 => exact (noted.writeOutDl0_congr _ _).advanceDraws_congr 4
  case ap2 => exact (noted.writeOutDl01_congr _ _ _).advanceDraws_congr 6
  case dcblk => exact (noted.writeOutDl01_congr _ _ _).advanceDraws_congr 3

/-- A request whose registers have been written has the same effect but for the words at ⊥. -/
theorem effect_congr {s' : State} (he : Effect s q s')
    (hq : ∀ r ∈ requestReads q, s.isWritten r = true) :
    ∃ t', Effect t q t' ∧ sameButUnwritten s' t' := by
  cases he with
  | read agent r =>
    rw [requestReads_hostRead] at hq
    exact ⟨_, .read agent r, h.hostRead_congr agent hq⟩
  | command agent v i hv =>
    rw [requestReads_command agent hv] at hq
    exact ⟨_, .command agent v i hv, h.afterCommand_congr hq⟩
  | illegal agent v hv => exact ⟨_, .illegal agent v hv, h.illegalCommand_congr⟩
  | status agent v => exact ⟨_, .status agent v, h.writeStatus_congr v⟩
  | yout agent v => exact ⟨_, .yout agent v, h⟩
  | data agent d v hd => exact ⟨_, .data agent d v hd, h.set_congr d v⟩
  | reset agent => exact ⟨_, .reset agent, h.platformReset_congr⟩

/-- Where its registers have been written, a request's outcome is the same but for the words at ⊥. -/
theorem perform_congr (hq : ∀ r ∈ requestReads q, s.isWritten r = true) :
    (∃ f, perform q s = .fault f ∧ perform q t = .fault f) ∨
      ∃ s' t', perform q s = .next s' ∧ perform q t = .next t' ∧ sameButUnwritten s' t' := by
  obtain ⟨s', he, es⟩ | ⟨a, ha, hw, es⟩ := perform_cases s q
  · obtain ⟨t', he', hsame⟩ := h.effect_congr he hq
    exact .inr ⟨s', t', es, perform_of_effect he', hsame⟩
  · exact .inl ⟨_, es, perform_illFormed ha hw⟩

/-- A strict step's outcome is the same but for the words at ⊥. -/
theorem strictStep_congr :
    (∃ f, strictStep s = .fault f ∧ strictStep t = .fault f) ∨
      ∃ s' t', strictStep s = .next s' ∧ strictStep t = .next t' ∧ sameButUnwritten s' t' := by
  cases hs : s.port with
  | nil => exact .inr ⟨s, t, strictStep_idle hs, strictStep_idle (h.port_eq ▸ hs), h⟩
  | cons q rest =>
    have ht : t.port = q :: rest := h.port_eq ▸ hs
    have named : firstUnwritten (requestReads q) s = firstUnwritten (requestReads q) t :=
      firstUnwritten_congr h.written_eq _
    cases hu : firstUnwritten (requestReads q) s with
    | some r =>
      exact .inl ⟨_, strictStep_of_unwritten hs hu, strictStep_of_unwritten ht (named ▸ hu)⟩
    | none =>
      rw [strictStep_of_written hs hu, strictStep_of_written ht (named ▸ hu), step_request s hs,
        step_request t ht]
      exact (h.setPort_congr rest).perform_congr ((firstUnwritten_eq_none s _).mp hu)

theorem observed_eq (r : DataReg) : s.observed r = t.observed r := by
  cases hr : s.isWritten r with
  | true => simp [hr, isWritten_congr h.written_eq r ▸ hr, h.get_eq hr]
  | false => simp [hr, isWritten_congr h.written_eq r ▸ hr]

theorem observe_eq : observe s = observe t := by
  have hdata : s.observed = t.observed := funext h.observed_eq
  obtain ⟨hi, -, -, hr, he, -, -⟩ := h
  simp [observe, readWord, statusWord, hi, hr, he, hdata]

end sameButUnwritten

end Sys2Proof.Machine
end

section
/-! The statements of the state family, settled. -/

namespace Sys2Proof.Machine

/-- Settles O35: of the effects of a request only those of R42's writers change a register's word. -/
theorem registersChangeOnlyByTheirWriters : Obligations.RegistersChangeOnlyByTheirWriters := by
  unfold Obligations.RegistersChangeOnlyByTheirWriters
  intro s t r hstep hne
  obtain ⟨-, rfl⟩ | ⟨⟨agent, act⟩, rest, hp, he⟩ := step_next s hstep
  · exact absurd rfl hne
  · refine ⟨agent, rest, ?_⟩
    obtain rfl | ⟨hr, v, rfl⟩ | ⟨v, i, rfl, hv, hr⟩ := effect_get_ne he hne
    · exact .inl hp
    · exact .inr (.inl ⟨hr, v, hp⟩)
    · rw [mem_operandsWritten] at hr
      exact .inr (.inr ⟨by tauto, v, i, hp, hv, fun h1 => by simpa [h1] using hr⟩)

/-- Settles O42, by the inversion of the step: every effect keeps the invariant. -/
theorem stepKeepsOutputBacked : Obligations.StepKeepsOutputBacked := by
  unfold Obligations.StepKeepsOutputBacked
  intro s t hs hstep
  obtain ⟨-, rfl⟩ | ⟨q, rest, -, he⟩ := step_next s hstep
  · exact hs
  · exact effect_keeps_outputBacked (s := { s with port := rest }) hs he

/-- Settles O43, by the inversion of the step: every effect keeps the invariant. -/
theorem stepKeepsIllegalRecorded : Obligations.StepKeepsIllegalRecorded := by
  unfold Obligations.StepKeepsIllegalRecorded
  intro s t hs hstep
  obtain ⟨-, rfl⟩ | ⟨q, rest, -, he⟩ := step_next s hstep
  · exact hs
  · exact effect_keeps_illegalRecorded (s := { s with port := rest }) hs he

/-- Settles O36: the write marks the register, so the read records nothing and replies its word. -/
theorem writeThenReadReturnsTheWord : Obligations.WriteThenReadReturnsTheWord := by
  unfold Obligations.WriteThenReadReturnsTheWord
  intro s writer reader r v rest hr hp
  have hwrite := (step_hostWrite s hp).trans (hostWrite_data _ hr v)
  generalize hm : State.set _ r v = m at hwrite
  have hport : m.port = hostRequest reader (hostReadAt (offsetOf (.data r))) :: rest := by
    rw [← hm, set_port]
  have hwritten : m.isWritten r = true := by simp [← hm, isWritten_set]
  have hget : m.get r = v := by simp [← hm, get_set]
  rw [runSteps_two hwrite (step_hostRead_of_written m hport hwritten)]
  constructor
  · rw [reply_replies, hget, ← hm, set_replies]
  · rw [reply_events, ← hm, set_events]

/-- Settles O40: a command's request reads exactly its operands, and an Uninit names the first at ⊥. -/
theorem strictCommandFaultsOnUnwrittenOperands :
    Obligations.StrictCommandFaultsOnUnwrittenOperands := by
  unfold Obligations.StrictCommandFaultsOnUnwrittenOperands
  intro i reads hmem
  obtain rfl : reads = operandsRead i := by
    simp only [List.mem_cons, List.not_mem_nil, Prod.mk.injEq, or_false] at hmem
    obtain ⟨rfl, rfl⟩ | ⟨rfl, rfl⟩ | ⟨rfl, rfl⟩ | ⟨rfl, rfl⟩ := hmem <;> rfl
  refine ⟨fun r => Iff.rfl, fun s agent rest hp => ?_⟩
  have hreads : requestReads (hostRequest agent (hostWriteAt 0x00#6 (encode i))) = operandsRead i :=
    requestReads_command agent (decode_encode i)
  have hstep := step_command s hp (decode_encode i)
  constructor
  · intro hw
    have hnone : firstUnwritten (operandsRead i) s = none := (firstUnwritten_eq_none s _).mpr hw
    refine ⟨strictStep_of_written hp (hreads ▸ hnone), _, hstep, ?_⟩
    exact afterCommand_events_of_written _ hw
  · rintro ⟨r₀, hr₀, hw₀⟩
    obtain ⟨hnone, -⟩ | ⟨r, hsome, -⟩ := noteUninit_cases s (operandsRead i)
    · simp [(firstUnwritten_eq_none s _).mp hnone r₀ hr₀] at hw₀
    · obtain ⟨hr, hw⟩ := firstUnwritten_eq_some s hsome
      refine ⟨r, hr, hw, strictStep_of_unwritten hp (hreads ▸ hsome), _, hstep, ?_⟩
      exact afterCommand_events_of_unwritten _ hsome

/-- Settles O53: a strict step compares equal but for the words at ⊥, and so does the observation. -/
theorem unwrittenContentsNeverShow : Obligations.UnwrittenContentsNeverShow := by
  unfold Obligations.UnwrittenContentsNeverShow
  intro s₁ s₂ h
  refine ⟨h.observe_eq, fun f hf => ?_, fun t₁ ht => ?_⟩
  · obtain ⟨g, e₁, e₂⟩ | ⟨s', t', e₁, -, -⟩ := h.strictStep_congr
    · rw [e₂, ← e₁, hf]
    · rw [e₁] at hf; cases hf
  · obtain ⟨g, e₁, -⟩ | ⟨s', t', e₁, e₂, hsame⟩ := h.strictStep_congr
    · rw [e₁] at ht; cases ht
    · rw [e₁] at ht; cases ht
      exact ⟨t', e₂, hsame⟩

/-- Settles O6. -/
theorem idleCoreKeepsItsState : Obligations.IdleCoreKeepsItsState := step_idle

/-- Settles O38. -/
theorem resetState : Obligations.ResetState :=
  ⟨rfl, rfl, rfl, fun r => by cases r <;> rfl⟩

/-- Settles O44: at reset YOUT holds ⊥ and ILLCMD is 0. -/
theorem resetMeetsTheInvariants : Obligations.ResetMeetsTheInvariants :=
  ⟨fun _ hy => absurd hy (by decide), fun hi => absurd hi (by decide)⟩

end Sys2Proof.Machine
end

section
/-! SUPPORT. Memory family: bad accesses, the step of one access, and the order of the port. -/

namespace Sys2Proof.Machine

variable {s t : State} {q : Request} {rest : List Request} {agent : Nat} {a : Access}

/-! ### Bad accesses (R36 to R38, R95) -/

/-- At a multiple of four the reserved slots are the offsets from 0x2C up (R35, R38). -/
theorem reserved_iff : ∀ off : BitVec 6, off.toNat % 4 = 0 →
    (reservedSlots.contains off = true ↔ 0x2C ≤ off.toNat) := by
  decide

theorem badAccess_iff : badAccess a ↔ a.wellFormed = false := by
  unfold badAccess Access.wellFormed
  by_cases hal : a.off.toNat % 4 = 0
  · have hres := reserved_iff a.off hal
    by_cases hw : a.width = .w32
    · simp only [hw, hal, ← hres]
      simp
    · simp [hw]
  · simp [hal]

theorem step_badAccess (h : s.port = hostRequest agent a :: rest) (ha : badAccess a) :
    step s = .fault (.busError a.off) := by
  rw [step_request s h]
  exact perform_illFormed rfl (badAccess_iff.mp ha)

theorem step_goodAccess (h : s.port = hostRequest agent a :: rest) (ha : ¬ badAccess a) :
    ∃ t, step s = .next t := by
  rw [step_request s h]
  obtain ⟨t, -, e⟩ | ⟨b, hb, hw, -⟩ := perform_cases { s with port := rest } (hostRequest agent a)
  · exact ⟨t, e⟩
  · obtain rfl : a = b := HostAction.access.inj hb
    exact absurd (badAccess_iff.mpr hw) ha

theorem runOn_of_busError {off : BitVec 6} (h : s.port = q :: rest)
    (he : step s = .fault (.busError off)) :
    runOn s = { s with port := rest, events := s.events ++ [.busError off] } := by
  simp [runOn, he, h]

/-! ### Reads -/

/-- All a step can answer to a 32-bit read, at whatever offset: the read of some register (R40). -/
theorem step_read_next {off : BitVec 6} (h : s.port = hostRequest agent (hostReadAt off) :: rest)
    (he : step s = .next t) : ∃ r, t = hostRead agent r { s with port := rest } := by
  rw [step_request s h] at he
  change hostAccess agent (hostReadAt off) _ = _ at he
  obtain ⟨-, e⟩ | ⟨r, -, e⟩ | ⟨r, v, ha, -⟩ :=
    hostAccess_cases { s with port := rest } agent (hostReadAt off)
  · rw [e] at he; cases he
  · rw [e] at he; cases he; exact ⟨r, rfl⟩
  · simp [hostReadAt, hostWriteAt] at ha

/-- A read of a data register at ⊥ answers its content and records the event (log entry 2). -/
theorem step_hostRead_of_unwritten {d : DataReg}
    (h : s.port = hostRequest agent (hostReadAt (offsetOf (.data d))) :: rest)
    (hd : s.isWritten d = false) :
    step s = .next ((({ s with port := rest } : State).reply agent (s.get d)).note (.uninit d)) := by
  have hnamed : firstUnwritten (readsOf (.data d)) { s with port := rest } = some d := by
    simp [firstUnwritten, readsOf, hd]
  rw [step_hostRead s h, hostRead, noteUninit_of_unwritten _ hnamed]
  rfl

theorem strictStep_hostRead_of_unwritten {d : DataReg}
    (h : s.port = hostRequest agent (hostReadAt (offsetOf (.data d))) :: rest)
    (hd : s.isWritten d = false) : strictStep s = .fault (.uninit d) := by
  refine strictStep_of_unwritten h ?_
  simp [hostRequest, firstUnwritten, readsOf, hd]

/-! ### Port order (R44) -/

@[simp] theorem writeStatus_replies (v : Word) (s : State) :
    (writeStatus v s).replies = s.replies := by
  unfold writeStatus; split <;> rfl

/-- An effect adds at most one reply, to the request's own agent. -/
theorem effect_replies (h : Effect s q t) :
    t.replies = s.replies ∨ ∃ w, t.replies = s.replies ++ [{ agent := q.agent, word := w }] := by
  cases h with
  | read agent r => exact .inr ⟨readWord r s, by simp [hostRead]⟩
  | _ => exact .inl (by simp)

theorem ownOrder_cons (agent : Nat) (q : Request) (rest : List Request) :
    ownOrder agent (q :: rest) =
      (if q.agent = agent then [q.act] else []) ++ ownOrder agent rest := by
  by_cases h : q.agent = agent <;> simp [ownOrder, h]

/-! ### The window (R35) -/

theorem route_window (off : BitVec 6) : route (Config.filtBase + off.toNat) = some off := by
  have := off.isLt
  have hin : Config.filtBase ≤ Config.filtBase + off.toNat ∧
      Config.filtBase + off.toNat < Config.filtBase + Config.windowSize :=
    ⟨Nat.le_add_right _ _, by simp only [Config.windowSize]; omega⟩
  rw [route, if_pos hin, Nat.add_sub_cancel_left, BitVec.ofNat_toNat, BitVec.setWidth_eq]

theorem route_outside {addr : Nat}
    (h : addr < Config.filtBase ∨ Config.filtBase + 0x40 ≤ addr) : route addr = none :=
  if_neg (by simp only [Config.windowSize]; omega)

/-! ### Command words (R52, R57) -/

theorem step_command_eq_exec {v : Word} {i : Instr}
    (h : s.port = hostRequest agent (hostWriteAt (offsetOf .cmd) v) :: rest)
    (hv : decode v = .ok i) : step s = exec i { s with port := rest } := by
  rw [exec_eq, step_command s h hv]

theorem decode_of_decodeTableWord {nbits w : Nat} {i : Instr}
    (h : decodeTableWord nbits w = some i) : decode (tableWord nbits w) = .ok i := by
  unfold decodeTableWord at h
  split at h
  · rw [decodeImage_hostImage] at h
    cases hd : decode (tableWord nbits w) with
    | ok j => simpa [hd, Except.toOption] using h
    | error e => simp [hd, Except.toOption] at h
  · cases h

end Sys2Proof.Machine
end

section
/-! SUPPORT. Memory family: runs of writes and of reads, and a command between them (R43, R44, R50). -/

namespace Sys2Proof.Machine

variable {s t : State} {rest : List Request} {agent n : Nat}

theorem runSteps_succ_of_next (h : step s = .next t) : runSteps (n + 1) s = runSteps n t := by
  rw [runSteps, runOn_of_next h]

/-! ### Registers and commands do not see the port -/

/-- The same state with these requests at its port: a step is `perform` of the first on the state with
the others (R44). -/
def State.withPort (s : State) (p : List Request) : State := { s with port := p }

section withPort

variable (s : State) (p : List Request) (r : DataReg)

@[simp] theorem withPort_port : (s.withPort p).port = p := rfl
@[simp] theorem withPort_replies : (s.withPort p).replies = s.replies := rfl
@[simp] theorem withPort_events : (s.withPort p).events = s.events := rfl
@[simp] theorem withPort_get : (s.withPort p).get r = s.get r := rfl
@[simp] theorem withPort_isWritten : (s.withPort p).isWritten r = s.isWritten r := rfl

theorem set_withPort (v : Word) : (s.withPort p).set r v = (s.set r v).withPort p := by
  cases r <;> rfl

theorem noteUninit_withPort (rs : List DataReg) :
    noteUninit rs (s.withPort p) = (noteUninit rs s).withPort p := by
  unfold noteUninit
  rw [firstUnwritten_congr (s := s.withPort p) (t := s) rfl]
  split <;> rfl

theorem readWord_withPort (q : RegName) : readWord q (s.withPort p) = readWord q s := by
  cases q <;> rfl

theorem hostRead_withPort (agent : Nat) (q : RegName) :
    hostRead agent q (s.withPort p) = (hostRead agent q s).withPort p := by
  rw [hostRead, noteUninit_withPort, readWord_withPort]
  rfl

theorem afterCommand_withPort (i : Instr) :
    afterCommand i (s.withPort p) = (afterCommand i s).withPort p := by
  cases i <;> simp only [afterCommand, noteUninit_withPort] <;> rfl

end withPort

theorem afterCommand_isWritten (i : Instr) (s : State) (r : DataReg) :
    (afterCommand i s).isWritten r = (decide (r ∈ operandsWritten i) || s.isWritten r) := by
  cases r <;> simp [afterCommand_written, mem_operandsWritten]

/-! ### Runs of writes -/

/-- The requests of one agent that write words to data registers. -/
def writeRequests (agent : Nat) (ws : List (DataReg × Word)) : List Request :=
  ws.map fun w => hostRequest agent (hostWriteAt (offsetOf (.data w.1)) w.2)

/-- Words written to data registers, in order. -/
def State.setAll (s : State) : List (DataReg × Word) → State
  | [] => s
  | (r, v) :: ws => (s.set r v).setAll ws

theorem setAll_withPort (s : State) (p : List Request) (ws : List (DataReg × Word)) :
    (s.withPort p).setAll ws = (s.setAll ws).withPort p := by
  induction ws generalizing s with
  | nil => rfl
  | cons w ws ih => rw [State.setAll, set_withPort, ih, State.setAll]

@[simp] theorem setAll_replies (s : State) (ws : List (DataReg × Word)) :
    (s.setAll ws).replies = s.replies := by
  induction ws generalizing s with
  | nil => rfl
  | cons w ws ih => rw [State.setAll, ih, set_replies]

@[simp] theorem setAll_events (s : State) (ws : List (DataReg × Word)) :
    (s.setAll ws).events = s.events := by
  induction ws generalizing s with
  | nil => rfl
  | cons w ws ih => rw [State.setAll, ih, set_events]

theorem setAll_isWritten (s : State) (ws : List (DataReg × Word)) (r : DataReg) :
    (s.setAll ws).isWritten r = (decide (r ∈ ws.map Prod.fst) || s.isWritten r) := by
  induction ws generalizing s with
  | nil => simp [State.setAll]
  | cons w ws ih =>
    rw [State.setAll, ih, isWritten_set]
    simp only [List.map_cons, List.mem_cons, Bool.decide_or, eq_comm (a := r), Bool.or_assoc,
      Bool.or_left_comm]

/-- Two states agree after the same writes on the registers they agreed on and on those written. -/
theorem setAll_get_congr {r : DataReg} {ws : List (DataReg × Word)}
    (h : s.get r = t.get r ∨ r ∈ ws.map Prod.fst) : (s.setAll ws).get r = (t.setAll ws).get r := by
  induction ws generalizing s t with
  | nil => simpa [State.setAll] using h
  | cons w ws ih =>
    refine ih ?_
    rw [get_set, get_set]
    split
    · exact .inl rfl
    next hne => simpa [Ne.symm hne] using h

/-- A run of writes sets its registers and takes its requests off the port (R41, R44). -/
theorem runSteps_writes {ws : List (DataReg × Word)} (hy : .yout ∉ ws.map Prod.fst)
    (h : s.port = writeRequests agent ws ++ rest) :
    runSteps (ws.length + n) s = runSteps n ((s.setAll ws).withPort rest) := by
  induction ws generalizing s with
  | nil =>
    obtain rfl : s.port = rest := h
    rw [List.length_nil, Nat.zero_add]
    rfl
  | cons w ws ih =>
    rw [List.map_cons, List.mem_cons, not_or] at hy
    obtain ⟨hw, hws⟩ := hy
    have hstep : step s = .next ((s.withPort (writeRequests agent ws ++ rest)).set w.1 w.2) :=
      (step_hostWrite s h).trans (hostWrite_data _ (Ne.symm hw) w.2)
    rw [List.length_cons, Nat.succ_add, runSteps_succ_of_next hstep, ih hws (set_port ..),
      set_withPort, setAll_withPort]
    rfl

/-! ### Runs of reads, and a command before them -/

/-- The requests of one agent that read data registers. -/
def readRequests (agent : Nat) (rs : List DataReg) : List Request :=
  rs.map fun r => hostRequest agent (hostReadAt (offsetOf (.data r)))

/-- A run of reads replies the words of its registers (R40, R44). -/
theorem runSteps_reads_replies {rs : List DataReg} (h : s.port = readRequests agent rs ++ rest) :
    (runSteps rs.length s).replies =
      s.replies ++ rs.map fun r => { agent := agent, word := s.get r } := by
  induction rs generalizing s with
  | nil => simp [runSteps]
  | cons r rs ih =>
    have hstep : step s =
        .next (hostRead agent (.data r) (s.withPort (readRequests agent rs ++ rest))) :=
      step_hostRead s h
    rw [List.length_cons, runSteps_succ_of_next hstep, hostRead_withPort, ih (withPort_port ..)]
    simp [hostRead, readWord]

/-- A run of reads of written registers records nothing (R31). -/
theorem runSteps_reads_events {rs : List DataReg} (h : s.port = readRequests agent rs ++ rest)
    (hrs : ∀ r ∈ rs, s.isWritten r = true) : (runSteps rs.length s).events = s.events := by
  induction rs generalizing s with
  | nil => rfl
  | cons r rs ih =>
    rw [List.forall_mem_cons] at hrs
    obtain ⟨hr, hrs⟩ := hrs
    rw [List.length_cons, runSteps_succ_of_next (step_hostRead_of_written s h hr),
      ih rfl (by simpa using hrs), reply_events]

/-- A command in a run: it takes its request off the port (R43, R57). -/
theorem runSteps_command {writer : Nat} {v : Word} {i : Instr} (hv : decode v = .ok i)
    (h : s.port = hostRequest writer (hostWriteAt (offsetOf .cmd) v) :: rest) :
    runSteps (n + 1) s = runSteps n ((afterCommand i s).withPort rest) := by
  rw [runSteps_succ_of_next (step_command s h hv), ← afterCommand_withPort]
  rfl

section command

variable {writer : Nat} {v : Word} {i : Instr} {rs : List DataReg} (hv : decode v = .ok i)
  (h : s.port = hostRequest writer (hostWriteAt (offsetOf .cmd) v) ::
    (readRequests agent rs ++ rest))
include hv h

/-- Reads after a command reply the words it leaves (R43, R44). -/
theorem runSteps_command_reads_replies :
    (runSteps (rs.length + 1) s).replies =
      s.replies ++ rs.map fun r => { agent := agent, word := (afterCommand i s).get r } := by
  rw [runSteps_command hv h, runSteps_reads_replies rfl]
  simp

/-- A command whose operands have been written, and reads of registers written by then, record
nothing (R31). -/
theorem runSteps_command_reads_events (hi : ∀ r ∈ operandsRead i, s.isWritten r = true)
    (hrs : ∀ r ∈ rs, (afterCommand i s).isWritten r = true) :
    (runSteps (rs.length + 1) s).events = s.events := by
  rw [runSteps_command hv h, runSteps_reads_events (withPort_port ..) hrs]
  exact afterCommand_events_of_written s hi

end command

/-! ### One sample by the discipline of R50 -/

/-- What the host loads before the command of one sample. -/
def contextWrites (c : Context) (x : Word) : List (DataReg × Word) :=
  [(.k0, c.k0), (.k1, c.k1), (.k2, c.k2), (.k3, c.k3), (.k4, c.k4), (.dl0, c.dl0), (.dl1, c.dl1),
    (.xin, x)]

/-- What the host reads back after it. -/
def savedRegs : List DataReg := [.yout, .dl0, .dl1]

theorem contextSequence_eq (agent : Nat) (c : Context) (x : Word) (i : Instr) :
    contextSequence agent c x i =
      writeRequests agent (contextWrites c x) ++
        hostRequest agent (hostWriteAt (offsetOf .cmd) (encode i)) ::
          readRequests agent savedRegs := rfl

/-- The load writes every register but YOUT. -/
theorem mem_contextWrites {r : DataReg} (hr : r ≠ .yout) (c : Context) (x : Word) :
    r ∈ (contextWrites c x).map Prod.fst := by
  cases r <;> simp [contextWrites] at hr ⊢

section contextSequence

variable {c : Context} {x : Word} {i : Instr}
  (h : s.port = contextSequence agent c x i ++ rest)
include h

/-- The load leaves the command and the save at the port. -/
theorem runSteps_contextSequence_load : runSteps 12 s = runSteps (savedRegs.length + 1)
    ((s.setAll (contextWrites c x)).withPort
      (hostRequest agent (hostWriteAt (offsetOf .cmd) (encode i)) ::
        (readRequests agent savedRegs ++ rest))) := by
  rw [contextSequence_eq, List.append_assoc] at h
  exact runSteps_writes (n := savedRegs.length + 1) (by simp [contextWrites]) h

theorem runSteps_contextSequence_replies :
    (runSteps 12 s).replies = s.replies ++ savedRegs.map fun r =>
      { agent := agent, word := (afterCommand i (s.setAll (contextWrites c x))).get r } := by
  rw [runSteps_contextSequence_load h, runSteps_command_reads_replies (decode_encode i) rfl,
    afterCommand_withPort]
  simp

theorem runSteps_contextSequence_events : (runSteps 12 s).events = s.events := by
  have loaded : ∀ r, r ≠ .yout → (s.setAll (contextWrites c x)).isWritten r = true := fun r hr => by
    simp only [setAll_isWritten, mem_contextWrites hr c x, decide_true, Bool.true_or]
  rw [runSteps_contextSequence_load h, runSteps_command_reads_events (decode_encode i) rfl]
  · exact setAll_events s _
  · exact fun r hr => loaded r (by rintro rfl; cases i <;> simp [operandsRead] at hr)
  · simp [savedRegs, afterCommand_isWritten, mem_operandsWritten, loaded]

end contextSequence

end Sys2Proof.Machine
end

section
/-! SUPPORT. Memory family: an algorithm respects every relation that its arithmetic respects. -/

namespace Sys2Proof.Machine

variable {α β : Type} {R : α → β → Prop} {A : Arith α} {B : Arith β}

/-- Each operation takes related operands to related results. -/
structure Arith.Respects (R : α → β → Prop) (A : Arith α) (B : Arith β) : Prop where
  add : ∀ k a a' b b', R a a' → R b b' → R (A.add k a b) (B.add k a' b')
  sub : ∀ k a a' b b', R a a' → R b b' → R (A.sub k a b) (B.sub k a' b')
  mul : ∀ k a a' b b', R a a' → R b b' → R (A.mul k a b) (B.mul k a' b')

/-- Related output samples and delay lines. -/
structure Result.Related (R : α → β → Prop) (r : Result α) (r' : Result β) : Prop where
  y : R r.y r'.y
  dl0 : R r.dl0 r'.dl0
  dl1 : R r.dl1 r'.dl1

namespace Arith.Respects

variable {c : BiquadCoef α} {c' : BiquadCoef β} {k m x e f : α} {k' m' x' e' f' : β}
  (h : Respects R A B)
include h

theorem biquadAlg (ha0 : R c.a0 c'.a0) (ha1 : R c.a1 c'.a1) (hb0 : R c.b0 c'.b0)
    (hb1 : R c.b1 c'.b1) (hb2 : R c.b2 c'.b2) (hx : R x x') (he : R e e') (hf : R f f') :
    (biquadAlg A c x e f).Related R (biquadAlg B c' x' e' f') := by
  have hy := h.add 1 _ _ _ _ (h.mul 0 _ _ _ _ hb0 hx) he
  have hin := h.sub 4 _ _ _ _ (h.mul 2 _ _ _ _ hb1 hx) (h.mul 3 _ _ _ _ ha0 hy)
  exact ⟨hy, h.add 5 _ _ _ _ hin hf,
    h.sub 8 _ _ _ _ (h.mul 6 _ _ _ _ hb2 hx) (h.mul 7 _ _ _ _ ha1 hy)⟩

theorem ap1Alg (hk : R k k') (hx : R x x') (he : R e e') :
    R (ap1Alg A k x e).1 (ap1Alg B k' x' e').1 ∧ R (ap1Alg A k x e).2 (ap1Alg B k' x' e').2 := by
  have hm := h.mul 1 _ _ _ _ (h.sub 0 _ _ _ _ hx he) hk
  exact ⟨h.add 3 _ _ _ _ hm he, h.add 2 _ _ _ _ hx hm⟩

theorem ap2Alg (hk : R k k') (hm : R m m') (hx : R x x') (he : R e e') (hf : R f f') :
    (ap2Alg A k m x e f).Related R (ap2Alg B k' m' x' e' f') := by
  have hsum := h.mul 1 _ _ _ _ hk (h.add 0 _ _ _ _ hx hf)
  have ht := h.add 3 _ _ _ _ hsum (h.mul 2 _ _ _ _ hm he)
  exact ⟨h.add 4 _ _ _ _ ht hf, h.sub 5 _ _ _ _ hx ht, he⟩

theorem dcblkAlg (hk : R k k') (hx : R x x') (he : R e e') (hf : R f f') :
    (dcblkAlg A k x e f).Related R (dcblkAlg B k' x' e' f') := by
  have hy := h.add 2 _ _ _ _ (h.sub 0 _ _ _ _ hx he) (h.mul 1 _ _ _ _ hk hf)
  exact ⟨hy, hx, hy⟩

end Arith.Respects

end Sys2Proof.Machine
end

section
/-! SUPPORT. Memory family: the commands keep `sameUpToNaN`, whatever their draws (R72). -/

namespace Sys2Proof.Machine

variable {a b a' b' : Word}

/-! ### The three operations -/

namespace sameUpToNaN

protected theorem rfl : sameUpToNaN a a := .inl rfl

theorem quietNaN (d d' : Nat) : sameUpToNaN (quietNaN d) (quietNaN d') := .inr ⟨by simp, by simp⟩

end sameUpToNaN

theorem isQNaN_neg (w : Word) : isQNaN (neg w) = isQNaN w := by
  rw [Bool.eq_iff_iff, isQNaN_iff, isQNaN_iff, expOf_neg, fracOf_neg]

/-- With a NaN operand a sum is the quiet NaN of its draw (R66). -/
theorem fadd_of_isNaN (d : Nat) {a b : Word} (h : isNaN a = true ∨ isNaN b = true) :
    fadd d a b = quietNaN d := by
  rw [fadd, if_pos (by simpa using h)]

/-- With a NaN operand a product is the quiet NaN of its draw (R68). -/
theorem fmul_of_isNaN (d : Nat) {a b : Word} (h : isNaN a = true ∨ isNaN b = true) :
    fmul d a b = quietNaN d := by
  rw [fmul, if_pos (by simpa using h)]

/-- Draws show only in which quiet NaN a sum is. -/
theorem fadd_sameUpToNaN_draws (d d' : Nat) (a b : Word) :
    sameUpToNaN (fadd d a b) (fadd d' a b) := by
  unfold fadd
  split
  · exact .quietNaN d d'
  · split
    · split
      · exact .quietNaN d d'
      · exact .rfl
    · exact .rfl

/-- Draws show only in which quiet NaN a product is. -/
theorem fmul_sameUpToNaN_draws (d d' : Nat) (a b : Word) :
    sameUpToNaN (fmul d a b) (fmul d' a b) := by
  unfold fmul
  split
  · exact .quietNaN d d'
  · split
    · exact .quietNaN d d'
    · exact .rfl

/-- An operation that gives the quiet NaN of its draw for a NaN operand, and shows its draw in nothing
else, takes operands that agree but for quiet NaNs to results that do. -/
theorem sameUpToNaN_of_op {op : Nat → Word → Word → Word}
    (hnan : ∀ d {a b}, isNaN a = true ∨ isNaN b = true → op d a b = quietNaN d)
    (hdraws : ∀ d d' a b, sameUpToNaN (op d a b) (op d' a b)) (d d' : Nat)
    (ha : sameUpToNaN a a') (hb : sameUpToNaN b b') : sameUpToNaN (op d a b) (op d' a' b') := by
  obtain rfl | ⟨hq, hq'⟩ := ha
  · obtain rfl | ⟨hq, hq'⟩ := hb
    · exact hdraws d d' a b
    · rw [hnan d (.inr (isNaN_of_isQNaN hq)), hnan d' (.inr (isNaN_of_isQNaN hq'))]
      exact .quietNaN d d'
  · rw [hnan d (.inl (isNaN_of_isQNaN hq)), hnan d' (.inl (isNaN_of_isQNaN hq'))]
    exact .quietNaN d d'

theorem fadd_sameUpToNaN (d d' : Nat) (ha : sameUpToNaN a a') (hb : sameUpToNaN b b') :
    sameUpToNaN (fadd d a b) (fadd d' a' b') :=
  sameUpToNaN_of_op fadd_of_isNaN fadd_sameUpToNaN_draws d d' ha hb

theorem fmul_sameUpToNaN (d d' : Nat) (ha : sameUpToNaN a a') (hb : sameUpToNaN b b') :
    sameUpToNaN (fmul d a b) (fmul d' a' b') :=
  sameUpToNaN_of_op fmul_of_isNaN fmul_sameUpToNaN_draws d d' ha hb

theorem neg_sameUpToNaN (h : sameUpToNaN a a') : sameUpToNaN (neg a) (neg a') := by
  obtain rfl | ⟨hq, hq'⟩ := h
  · exact .rfl
  · exact .inr ⟨by rw [isQNaN_neg, hq], by rw [isQNaN_neg, hq']⟩

theorem fsub_sameUpToNaN (d d' : Nat) (ha : sameUpToNaN a a') (hb : sameUpToNaN b b') :
    sameUpToNaN (fsub d a b) (fsub d' a' b') :=
  fadd_sameUpToNaN d d' ha (neg_sameUpToNaN hb)

/-! ### The four commands -/

/-- binary32 agrees with itself but for quiet NaNs, whatever the draws. -/
theorem binary32_respects (d d' : Nat) :
    Arith.Respects sameUpToNaN (binary32 d) (binary32 d') where
  add k _ _ _ _ := fadd_sameUpToNaN (d + k) (d' + k)
  sub k _ _ _ _ := fsub_sameUpToNaN (d + k) (d' + k)
  mul k _ _ _ _ := fmul_sameUpToNaN (d + k) (d' + k)

/-- From registers that agree but for quiet NaNs, YOUT aside (no command reads it, R56), a command
leaves registers that agree but for quiet NaNs, YOUT with them. -/
theorem afterCommand_sameUpToNaN {s t : State} (i : Instr)
    (h : ∀ r, r ≠ .yout → sameUpToNaN (s.get r) (t.get r)) (r : DataReg) :
    sameUpToNaN ((afterCommand i s).get r) ((afterCommand i t).get r) := by
  by_cases hr : r ∈ operandsWritten i
  · have respects := binary32_respects s.draws t.draws
    have hx := h .xin (by decide)
    have hd0 := h .dl0 (by decide)
    have hd1 := h .dl1 (by decide)
    have hk0 := h .k0 (by decide)
    have hk1 := h .k1 (by decide)
    cases i <;> simp only [operandsWritten, List.mem_cons, List.not_mem_nil, or_false] at hr
    case biquad =>
      obtain ⟨hy, he0, he1⟩ := respects.biquadAlg
        (c := ⟨s.k0, s.k1, s.k2, s.k3, s.k4⟩) (c' := ⟨t.k0, t.k1, t.k2, t.k3, t.k4⟩)
        hk0 hk1 (h .k2 (by decide)) (h .k3 (by decide)) (h .k4 (by decide)) hx hd0 hd1
      obtain rfl | rfl | rfl := hr <;> assumption
    case ap1 =>
      obtain ⟨hy, he0⟩ := respects.ap1Alg hk0 hx hd0
      obtain rfl | rfl := hr <;> assumption
    case ap2 =>
      obtain ⟨hy, he0, he1⟩ := respects.ap2Alg hk0 hk1 hx hd0 hd1
      obtain rfl | rfl | rfl := hr <;> assumption
    case dcblk =>
      obtain ⟨hy, he0, he1⟩ := respects.dcblkAlg hk0 hx hd0 hd1
      obtain rfl | rfl | rfl := hr <;> assumption
  · rw [afterCommand_get_of_not_mem s hr, afterCommand_get_of_not_mem t hr]
    exact h r (by rintro rfl; exact hr (by simp [mem_operandsWritten]))

end Sys2Proof.Machine
end

section
/-! The statements of the memory family, settled. -/

namespace Sys2Proof.Machine

/-- Settles O30: an access is bad exactly when it is ill-formed, and a step that faults has met one. -/
theorem busErrorExactlyOnBadAccesses : Obligations.BusErrorExactlyOnBadAccesses := by
  unfold Obligations.BusErrorExactlyOnBadAccesses
  refine ⟨fun s agent a rest hp => ⟨fun ha => ?_, step_goodAccess hp⟩, fun s => ?_⟩
  · exact ⟨step_badAccess hp ha, runOn_of_busError hp (step_badAccess hp ha)⟩
  · obtain ⟨-, e⟩ | ⟨_, _, _, -, -, e⟩ | ⟨⟨agent, act⟩, rest, a, hp, rfl, hw, e⟩ := step_cases s
    · simp [e]
    · simp [e]
    · refine ⟨by simp [e], fun f hf => ⟨agent, a, rest, hp, badAccess_iff.mpr hw, ?_⟩⟩
      rw [e] at hf
      cases hf
      rfl

/-- Settles O31: a read answers the register's word, and the only record it can make is an Uninit. -/
theorem hostReadReturnsTheRegister : Obligations.HostReadReturnsTheRegister := by
  unfold Obligations.HostReadReturnsTheRegister
  intro s agent rest
  have read (q : RegName) :
      step (s.withPort (hostRequest agent (hostReadAt (offsetOf q)) :: rest)) =
        .next (hostRead agent q (s.withPort rest)) := step_hostRead _ rfl
  have word (d : DataReg) (hd : s.isWritten d = true) :
      step (s.withPort (hostRequest agent (hostReadAt (offsetOf (.data d))) :: rest)) =
        .next ((s.withPort rest).reply agent (s.get d)) :=
    step_hostRead_of_written _ rfl hd
  refine ⟨read .cmd, read .status, word .xin, word .yout, word .dl0, word .dl1, word .k0, word .k1,
    word .k2, word .k3, word .k4, fun r hr => ?_, fun off ho => ?_, fun off w hw => ?_,
    fun off t ht => ?_⟩
  · exact ⟨step_hostRead_of_unwritten (s := s.withPort (_ :: rest)) rfl hr,
      strictStep_hostRead_of_unwritten (s := s.withPort (_ :: rest)) rfl hr⟩
  · exact step_badAccess (a := hostReadAt off) rfl (.inr ho)
  · exact step_badAccess (a := ⟨w, off, .read⟩) rfl (.inl hw)
  · obtain ⟨q, rfl⟩ := step_read_next (s := s.withPort (_ :: rest)) rfl ht
    exact ⟨fun r => ⟨hostRead_get _ r agent q, isWritten_congr (hostRead_written _ agent q) r⟩,
      hostRead_illcmd _ agent q⟩

/-- Settles O32: each offset's own rule, and a bus error at the others. -/
theorem hostWriteEffects : Obligations.HostWriteEffects := by
  unfold Obligations.HostWriteEffects
  intro s agent rest v
  have write (q : RegName) :
      step (s.withPort (hostRequest agent (hostWriteAt (offsetOf q) v) :: rest)) =
        hostWrite q v (s.withPort rest) := step_hostWrite _ rfl
  refine ⟨write .cmd, write .status, write (.data .xin), write (.data .yout), write (.data .dl0),
    write (.data .dl1), write (.data .k0), write (.data .k1), write (.data .k2), write (.data .k3),
    write (.data .k4), fun off ho => ?_, fun off w hw => ?_⟩
  · exact step_badAccess (a := hostWriteAt off v) rfl (.inr ho)
  · exact step_badAccess (a := ⟨w, off, .write v⟩) rfl (.inl hw)

/-- Settles O37: the three reads reply the words of the state the command leaves. -/
theorem commandThenReadsReturnItsResults : Obligations.CommandThenReadsReturnItsResults := by
  unfold Obligations.CommandThenReadsReturnItsResults
  intro s t writer reader v i rest hv ht hp
  rw [exec_next s ht]
  exact runSteps_command_reads_replies (rs := savedRegs) hv hp

/-- Settles O45: every effect leaves the rest of the port, and replies at most once. -/
theorem portOrderIsKept : Obligations.PortOrderIsKept := by
  unfold Obligations.PortOrderIsKept
  intro s t q rest hp hstep
  obtain ⟨hnil, -⟩ | ⟨q', rest', hp', he⟩ := step_next s hstep
  · rw [hnil] at hp; cases hp
  · rw [hp] at hp'
    cases hp'
    have hport : t.port = rest := effect_port _ he
    refine ⟨hport, effect_replies (s := { s with port := rest }) he, fun agent => ?_⟩
    rw [hp, hport, ownOrder_cons]

/-- Settles O47: after the load the two states agree on every register a command reads, and a command
keeps that agreement but for its draws. -/
theorem contextSwitchIsolatesInstances : Obligations.ContextSwitchIsolatesInstances := by
  unfold Obligations.ContextSwitchIsolatesInstances
  intro i c x agent s₁ s₂ rest₁ rest₂ hp₁ hp₂
  have same := afterCommand_sameUpToNaN (s := s₁.setAll (contextWrites c x))
    (t := s₂.setAll (contextWrites c x)) i
    fun r hr => .inl (setAll_get_congr (.inr (mem_contextWrites hr c x)))
  exact ⟨_, _, _, _, _, _, runSteps_contextSequence_replies hp₁, runSteps_contextSequence_replies hp₂,
    same .yout, same .dl0, same .dl1, runSteps_contextSequence_events hp₁⟩

/-- Settles O48. -/
theorem windowAddressMap : Obligations.WindowAddressMap := by
  unfold Obligations.WindowAddressMap
  refine ⟨Nat.mul_mod_left _ _, route_window, fun _ h => route_outside h, ?_, ?_⟩
  · intro s agent addr w dir h
    simp [State.submit, h]
  · intro s agent off w dir
    simp [State.submit, route_window, hostRequest]

/-- Settles O5: a table word of a command decodes to it, and its request is then first at the port. -/
theorem stepRunsTheDecodedCommand : Obligations.StepRunsTheDecodedCommand := by
  unfold Obligations.StepRunsTheDecodedCommand
  exact ⟨fun s agent rest v i hp hv => step_command_eq_exec hp hv, fun s nbits w i h =>
    step_command_eq_exec (s := s.withFetchWord nbits w) rfl (decode_of_decodeTableWord h)⟩

end Sys2Proof.Machine
end

section
/-! SUPPORT. Encoding family: which words are commands (R53, R55, R57, R58). -/

namespace Sys2Proof.Machine

variable {v : Word} {i : Instr}

/-! ### The two fields of a word -/

theorem opOf_kindOf : ∀ op : BitVec 2, opOf (kindOf op) = op := by decide

/-- A word is its RSVD field above its OP field (R53). -/
theorem rsvdField_append_opField (v : Word) : rsvdField v ++ opField v = v :=
  (BitVec.extractLsb'_append_extractLsb'_eq_extractLsb' rfl).trans BitVec.extractLsb'_eq_self

theorem encode_kindOf_opField (h : rsvdField v = 0#30) : encode (kindOf (opField v)) = v := by
  rw [encode, opOf_kindOf, ← h, rsvdField_append_opField]

/-! ### Decoding -/

theorem decode_of_rsvdField_eq (h : rsvdField v = 0#30) : decode v = .ok (kindOf (opField v)) :=
  if_pos h

theorem decode_of_rsvdField_ne (h : rsvdField v ≠ 0#30) : decode v = .error (.illegalCommand v) :=
  if_neg h

theorem decode_eq_ok_iff : decode v = .ok i ↔ v = encode i := by
  refine ⟨fun h => ?_, fun h => h ▸ decode_encode i⟩
  obtain ⟨h0, e⟩ | ⟨-, e⟩ := decode_cases v
  · rw [e] at h
    cases h
    exact (encode_kindOf_opField h0).symm
  · rw [e] at h
    cases h

theorem exists_eq_encode_iff : (∃ i, v = encode i) ↔
    v = 0x00000000#32 ∨ v = 0x00000001#32 ∨ v = 0x00000002#32 ∨ v = 0x00000003#32 := by
  constructor
  · rintro ⟨i, rfl⟩
    cases i <;> decide
  · rintro (rfl | rfl | rfl | rfl)
    · exact ⟨.biquad, rfl⟩
    · exact ⟨.ap1, rfl⟩
    · exact ⟨.ap2, rfl⟩
    · exact ⟨.dcblk, rfl⟩

theorem exists_decode_eq_ok_iff : (∃ i, decode v = .ok i) ↔ ∃ i, v = encode i :=
  exists_congr fun _ => decode_eq_ok_iff

theorem rsvdField_eq_zero_iff : rsvdField v = 0#30 ↔ ∃ i, v = encode i := by
  refine ⟨fun h => ⟨_, (encode_kindOf_opField h).symm⟩, ?_⟩
  rintro ⟨i, rfl⟩
  cases i <;> decide

theorem legalCommand_iff : legalCommand v = true ↔ ∃ i, v = encode i := by
  simp [exists_eq_encode_iff, legalCommand, or_assoc]

/-! ### Executing a word -/

theorem execute_of_rsvdField_eq (h : rsvdField v = 0#30) (s : State) :
    execute v s = exec (kindOf (opField v)) s := by
  rw [execute, decode_of_rsvdField_eq h]

theorem execute_of_rsvdField_ne (h : rsvdField v ≠ 0#30) (s : State) :
    execute v s = .next (illegalCommand s) := by
  rw [execute, decode_of_rsvdField_ne h]

/-- An illegal command reads no register (R58). -/
theorem requestReads_illegal (agent : Nat) (h : rsvdField v ≠ 0#30) :
    requestReads (hostRequest agent (hostWriteAt (offsetOf .cmd) v)) = [] := by
  simp [requestReads, hostRequest, hostWriteAt, shapeOk, decode_of_rsvdField_ne h]

section illegal

variable {s : State} {agent : Nat} {rest : List Request} (h : rsvdField v ≠ 0#30)
  (hp : s.port = hostRequest agent (hostWriteAt (offsetOf .cmd) v) :: rest)
include h hp

theorem step_illegal : step s = .next (illegalCommand { s with port := rest }) :=
  (step_hostWrite s hp).trans (execute_of_rsvdField_ne h _)

theorem strictStep_illegal : strictStep s = step s :=
  strictStep_of_written hp (by rw [requestReads_illegal agent h]; rfl)

end illegal

/-! ### What a command records -/

/-- A command records nothing, or one Uninit of an operand at ⊥ (R31, R98). -/
theorem afterCommand_events_cases (s : State) (i : Instr) :
    (afterCommand i s).events = s.events ∨
      ∃ r ∈ operandsRead i, s.isWritten r = false ∧
        (afterCommand i s).events = s.events ++ [.uninit r] := by
  obtain ⟨-, e⟩ | ⟨r, hr, -⟩ := noteUninit_cases s (operandsRead i)
  · exact .inl (by rw [afterCommand_events, e])
  · obtain ⟨hmem, hw⟩ := firstUnwritten_eq_some s hr
    exact .inr ⟨r, hmem, hw, afterCommand_events_of_unwritten s hr⟩

end Sys2Proof.Machine
end

section
/-! SUPPORT. Encoding family: exact decimals (R61), and the lines of a script against the step. -/

namespace Sys2Proof.Machine

/-! ### Exact decimals -/

section decimal

variable {negative : Bool} {digits scale : Nat} {w : Word}

/-- An assembled decimal: the rounding of a whole number of units of 2^-149 that it equals. -/
theorem decimalWord_eq_some (h : decimalWord negative digits scale = some w) :
    w = packSign negative (roundBits (magOf w) 0) ∧ isFinite w = true ∧
      magOf w * 10 ^ scale = digits * 2 ^ 149 := by
  unfold decimalWord at h
  dsimp only at h
  split at h
  next hc =>
    obtain ⟨hmod, hfin, hmag⟩ := hc
    obtain rfl := Option.some.inj h
    exact ⟨by rw [hmag], hfin, by rw [hmag]; exact Nat.div_mul_cancel (Nat.dvd_of_mod_eq_zero hmod)⟩
  next => cases h

theorem magOf_congr {a b : Word} (he : expOf a = expOf b) (hf : fracOf a = fracOf b) :
    magOf a = magOf b := by
  rw [magOf, magOf, he, hf]

/-- The magnitude of a finite pattern, under either sign, is finite and keeps its value: it rounds to
its own exponent and fraction. -/
theorem packSign_roundBits_exact (negative : Bool) (h : isFinite w = true) :
    isFinite (packSign negative (roundBits (magOf w) 0)) = true ∧
      magOf (packSign negative (roundBits (magOf w) 0)) = magOf w := by
  have hbits : roundBits (magOf w) 0 = expOf w * 2 ^ 23 + fracOf w := by
    simpa using roundBits_magOf w 0 h
  have hlt := roundBits_lt (magOf w) 0
  have hfrac := fracOf_lt w
  have hexp : expOf (packSign negative (roundBits (magOf w) 0)) = expOf w := by
    rw [expOf_packSign negative hlt, hbits]; omega
  have hfr : fracOf (packSign negative (roundBits (magOf w) 0)) = fracOf w := by
    rw [fracOf_packSign negative hlt, hbits]; omega
  exact ⟨by rw [isFinite_iff] at h ⊢; rwa [hexp], magOf_congr hexp hfr⟩

theorem decimalWord_of_exact (negative : Bool) (h : isFinite w = true)
    (hw : magOf w * 10 ^ scale = digits * 2 ^ 149) :
    decimalWord negative digits scale = some (packSign negative (roundBits (magOf w) 0)) := by
  have hpos : 0 < 10 ^ scale := Nat.pow_pos (by decide)
  unfold decimalWord
  rw [← hw, Nat.mul_div_cancel _ hpos]
  exact if_pos ⟨Nat.mul_mod_left _ _, packSign_roundBits_exact negative h⟩

end decimal

/-! ### The accesses of a script -/

/-- A host write placed first at the port acts on the core as it was (R41, R44). -/
theorem step_hostWrite_first (s : State) (agent : Nat) (r : RegName) (v : Word) :
    step { s with port := hostRequest agent (hostWriteAt (offsetOf r) v) :: s.port } =
      hostWrite r v s :=
  step_hostWrite _ rfl

/-- A host read placed first at the port acts on the core as it was (R40, R44). -/
theorem step_hostRead_first (s : State) (agent : Nat) (r : RegName) :
    step { s with port := hostRequest agent (hostReadAt (offsetOf r)) :: s.port } =
      .next (hostRead agent r s) :=
  step_hostRead _ rfl

@[simp] theorem transaction_wr_hex (vars : List (String × Word)) (r : RegName) (v : Word) :
    (Prim.wr r (.hex v)).transaction vars = .ok (hostWriteAt (offsetOf r) v) := rfl

@[simp] theorem transaction_rd (vars : List (String × Word)) (r : RegName) (name : String) :
    (Prim.rd r name).transaction vars = .ok (hostReadAt (offsetOf r)) := rfl

theorem hostWrite_encode (i : Instr) (s : State) :
    hostWrite .cmd (encode i) s = .next (afterCommand i s) := by
  simp only [hostWrite, execute, decode_encode, exec_eq]

section run

variable {h : HostRun} {agent : Nat}

/-- A write of a known word is the host write of its register (R41, R61). -/
theorem run_wr_hex {r : RegName} {v : Word} {t : State} (ht : hostWrite r v h.core = .next t) :
    (Prim.wr r (.hex v)).run step agent h =
      .ok { core := t, vars := h.vars, sent := h.sent ++ [hostWriteAt (offsetOf r) v] } := by
  have hstep := (step_hostWrite_first h.core agent r v).trans ht
  rw [hostRequest] at hstep
  simp [Prim.run, hstep, bindReply]

/-- A read binds its name to the register's word (R40, R61). -/
theorem run_rd (r : RegName) (name : String) :
    (Prim.rd r name).run step agent h =
      .ok { core := hostRead agent r h.core, vars := (name, readWord r h.core) :: h.vars,
            sent := h.sent ++ [hostReadAt (offsetOf r)] } := by
  have hstep := step_hostRead_first h.core agent r
  rw [hostRequest] at hstep
  simp [Prim.run, hstep, bindReply, hostRead]

/-- `STEP op, x -> y` leaves the core after the command on `x` and the read of its output (R62). -/
theorem runPrims_sample (i : Instr) (x : Word) (name : String) :
    runPrims step agent (Line.sample i (.hex x) name).expand h = .ok
      { core := hostRead agent (.data .yout) (afterCommand i (h.core.set .xin x))
        vars := (name, (afterCommand i (h.core.set .xin x)).yout) :: h.vars
        sent := h.sent ++ [hostWriteAt (offsetOf (.data .xin)) x] ++
          [hostWriteAt (offsetOf .cmd) (encode i)] ++ [hostReadAt (offsetOf (.data .yout))] } := by
  simp [Line.expand, runPrims, run_wr_hex (hostWrite_data h.core (d := .xin) (by decide) x),
    run_wr_hex (hostWrite_encode i _), run_rd, readWord]

end run

/-- A script that holds an inexact decimal holds one that the assembler names (R61). -/
theorem findSome?_refused_of_mem {ps : List Prim} {p : Prim} {e : ScriptStop} (hp : p ∈ ps)
    (he : p.refused = some e) : ∃ q ∈ ps, ∃ e', q.refused = some e' ∧
      ps.findSome? Prim.refused = some e' := by
  cases hf : ps.findSome? Prim.refused with
  | none => simp [List.findSome?_eq_none_iff.mp hf p hp] at he
  | some e' =>
    obtain ⟨q, hq, hqe⟩ := List.exists_of_findSome?_eq_some hf
    exact ⟨q, hq, e', hqe, rfl⟩

end Sys2Proof.Machine
end

section
/-! The statements of the encoding family, settled. -/

namespace Sys2Proof.Machine

/-- Settles O2: the decoder is the inverse of the encoder, whose four words are R55's. -/
theorem decodeAcceptsExactlyTheFourWords : Obligations.DecodeAcceptsExactlyTheFourWords := by
  unfold Obligations.DecodeAcceptsExactlyTheFourWords
  refine ⟨⟨rfl, rfl, rfl, rfl⟩, fun v => ⟨fun i => decode_eq_ok_iff, ?_, ?_⟩⟩
  · rw [exists_decode_eq_ok_iff, exists_eq_encode_iff]
  · rw [exists_decode_eq_ok_iff, legalCommand_iff]

/-- Settles O11: the frame of the state a command leaves; of the three, none is AP1. -/
theorem biquadAp2DcblkFrame : Obligations.BiquadAp2DcblkFrame := by
  unfold Obligations.BiquadAp2DcblkFrame
  intro i reads s t hmem ht
  obtain ⟨hi, rfl⟩ : i ≠ .ap1 ∧ reads = operandsRead i := by
    simp only [List.mem_cons, List.not_mem_nil, Prod.mk.injEq, or_false] at hmem
    obtain ⟨rfl, rfl⟩ | ⟨rfl, rfl⟩ | ⟨rfl, rfl⟩ := hmem <;> exact ⟨by decide, rfl⟩
  obtain rfl := exec_next s ht
  refine ⟨afterCommand_xin s i, afterCommand_k0 s i, afterCommand_k1 s i, afterCommand_k2 s i,
    afterCommand_k3 s i, afterCommand_k4 s i, afterCommand_illcmd s i, afterCommand_port s i,
    afterCommand_replies s i, ?_, afterCommand_events_cases s i⟩
  simp [afterCommand_written, hi]

/-- Settles O12: the frame of the state a command leaves, and AP1 does not write DL1. -/
theorem ap1Frame : Obligations.Ap1Frame := by
  unfold Obligations.Ap1Frame
  intro s t ht
  obtain rfl := exec_next s ht
  refine ⟨afterCommand_xin s _, afterCommand_ap1_dl1 s, afterCommand_k0 s _, afterCommand_k1 s _,
    afterCommand_k2 s _, afterCommand_k3 s _, afterCommand_k4 s _, afterCommand_illcmd s _,
    afterCommand_port s _, afterCommand_replies s _, ?_, ?_⟩
  · simp [afterCommand_written]
  · simpa [operandsRead] using afterCommand_events_cases s .ap1

/-- Settles O33: RSVD is zero exactly in the four words, and a word where it is not reads no register. -/
theorem illegalCommandOnlySetsIllcmd : Obligations.IllegalCommandOnlySetsIllcmd := by
  unfold Obligations.IllegalCommandOnlySetsIllcmd
  intro v
  refine ⟨not_congr (rsvdField_eq_zero_iff.trans exists_eq_encode_iff), fun h s agent rest hp => ?_⟩
  exact ⟨step_illegal h hp, strictStep_illegal h hp⟩

/-- Settles O49: an assembled decimal is checked to be exact, and a finite magnitude rounds to itself. -/
theorem decimalsAssembleExactly : Obligations.DecimalsAssembleExactly := by
  unfold Obligations.DecimalsAssembleExactly
  intro negative digits scale
  constructor
  · intro w hw
    obtain ⟨hpack, hfin, hmag⟩ := decimalWord_eq_some hw
    exact ⟨hfin, by rw [hpack, signOf_packSign _ (roundBits_lt _ _)], hmag⟩
  · rintro ⟨w, hfin, hmag⟩
    rw [decimalWord_of_exact negative hfin hmag, Option.isSome_some]

/-- Settles O51: the write of XIN, the command and the read of YOUT, each by its own rule. -/
theorem scriptStepRunsOneSample : Obligations.ScriptStepRunsOneSample := by
  unfold Obligations.ScriptStepRunsOneSample
  intro i x name agent h t ht
  obtain rfl := exec_next _ ht
  refine ⟨_, runPrims_sample i x name, ?_⟩
  simp [hostRead]

/-- Settles O1: an image gives its word back, and decoding inverts encoding. -/
theorem decodeEncodeRoundTrip : Obligations.DecodeEncodeRoundTrip := by
  unfold Obligations.DecodeEncodeRoundTrip
  exact fun i => ⟨decode_encode i, by rw [decodeImage_hostImage, decode_encode]⟩

/-- Settles O3: the first four are the encoder's words, and the others have a bit of RSVD set. -/
theorem sampleCommandWordsDecode : Obligations.SampleCommandWordsDecode :=
  ⟨decode_encode .biquad, decode_encode .ap1, decode_encode .ap2, decode_encode .dcblk,
    decode_of_rsvdField_ne (by decide), decode_of_rsvdField_ne (by decide),
    decode_of_rsvdField_ne (by decide), decode_of_rsvdField_ne (by decide)⟩

/-- Settles O4: the RSVD field decides whether a command runs, and the OP field which. -/
theorem executeFollowsTheCommandWord : Obligations.ExecuteFollowsTheCommandWord := by
  unfold Obligations.ExecuteFollowsTheCommandWord
  refine fun v s => ⟨fun h => execute_of_rsvdField_ne h s, fun h => ?_⟩
  have run {op : BitVec 2} (hop : opField v = op) : execute v s = exec (kindOf op) s :=
    hop ▸ execute_of_rsvdField_eq h s
  exact ⟨run, run, run, run⟩

/-- Settles O50: each line by its expansion, and a loop by its count. -/
theorem pseudoInstructionTransactions : Obligations.PseudoInstructionTransactions := by
  unfold Obligations.PseudoInstructionTransactions
  intro a0 a1 b0 b1 b2 x y
  refine ⟨rfl, rfl, rfl, rfl, rfl, rfl, fun _ _ => rfl, rfl, fun _ _ => rfl, fun n body rest => ?_⟩
  constructor
  · simp [Script.expand]
  · simp [Script.expand, List.replicate_succ]

/-- Settles O52: the assembler names the first of the script's inexact decimals. -/
theorem inexactDecimalsAreRefused : Obligations.InexactDecimalsAreRefused := by
  unfold Obligations.InexactDecimalsAreRefused
  intro stepBy agent p vars s r negative digits scale hmem hnone
  obtain ⟨q, hq, e, hqe, hfirst⟩ := findSome?_refused_of_mem hmem
    (refused_eq_some.mpr ⟨r, negative, digits, scale, rfl, hnone, rfl⟩)
  obtain ⟨r', neg', digits', scale', rfl, hnone', rfl⟩ := refused_eq_some.mp hqe
  exact ⟨r', neg', digits', scale', hq, hnone', run_refused hfirst stepBy agent vars s⟩

end Sys2Proof.Machine
end

section
/-! SUPPORT. Numerics family: sums and products of finite operands, and when a result is a NaN (R66, R68, R72). -/

namespace Sys2Proof.Machine

variable {a b : Word}

/-! ### Classes -/

theorem isNaN_eq_false_of_isFinite (h : isFinite a = true) : isNaN a = false := by
  simp only [isFinite, Bool.and_eq_true, Bool.not_eq_true'] at h
  exact h.1

theorem isInf_eq_false_of_isFinite (h : isFinite a = true) : isInf a = false := by
  simp only [isFinite, Bool.and_eq_true, Bool.not_eq_true'] at h
  exact h.2

theorem isNaN_eq_false_of_isInf (h : isInf a = true) : isNaN a = false := by
  rw [← Bool.not_eq_true, isNaN_iff]
  exact fun hn => hn.2 ((isInf_iff a).mp h).2

theorem isZero_eq_false_of_isInf (h : isInf a = true) : isZero a = false := by
  rw [← Bool.not_eq_true, isZero_iff, ((isInf_iff a).mp h).1]
  simp

/-- There is one infinity of each sign (R65). -/
theorem eq_infWord_of_isInf (h : isInf a = true) : a = infWord (signOf a) := by
  obtain ⟨he, hf⟩ := (isInf_iff a).mp h
  rw [infWord, ← packSign_fields a, he, hf, signOf_packSign _ (by decide)]
  rfl

/-- `neg` flips bit 31 and no other (R67). -/
theorem getLsbD_neg (w : Word) (k : Nat) :
    (neg w).getLsbD k = if k = 31 then !w.getLsbD k else w.getLsbD k := by
  rw [neg_eq_xor, BitVec.getLsbD_xor]
  split
  · next h => rw [h, show (0x80000000#32).getLsbD 31 = true by decide, Bool.xor_true]
  · next h =>
    rw [show 0x80000000#32 = BitVec.twoPow 32 31 by decide, BitVec.getLsbD_twoPow,
      decide_eq_false (Ne.symm h), Bool.and_false, Bool.xor_false]

/-! ### Values under a sign -/

/-- The whole number of magnitude `n` under a sign. -/
def withSign (neg : Bool) (n : Nat) : Int := if neg then -(n : Int) else n

theorem valOf_eq_withSign (w : Word) : valOf w = withSign (signOf w) (magOf w) := rfl

@[simp] theorem withSign_zero (s : Bool) : withSign s 0 = 0 := by cases s <;> rfl

theorem withSign_mul (s t : Bool) (m n : Nat) :
    withSign s m * withSign t n = withSign (s != t) (m * n) := by
  cases s <;> cases t <;> simp [withSign]

theorem withSign_mul_two_pow (s : Bool) (n k : Nat) :
    withSign s n * 2 ^ k = withSign s (n * 2 ^ k) := by
  cases s <;> simp [withSign]

theorem withSign_natAbs (x : Int) : withSign (decide (x < 0)) x.natAbs = x := by
  unfold withSign
  by_cases h : x < 0
  · rw [if_pos (by simpa using h)]; omega
  · rw [if_neg (by simpa using h)]; omega

/-- Under one sign, numbers lie as far apart as their magnitudes. -/
theorem abs_withSign_sub (s : Bool) (m n : Nat) :
    |withSign s m - withSign s n| = ((m : Int) - n).natAbs := by
  rw [Int.abs_eq_natAbs]
  cases s
  · rfl
  · simp only [withSign, if_true]; omega

theorem valOf_packSign (s : Bool) {p : Nat} (h : p < 2 ^ 31) :
    valOf (packSign s p) = withSign s (magBits p) := by
  rw [valOf_eq_withSign, signOf_packSign s h, magOf_packSign s h]

/-- The exact product of two patterns: the XOR of the signs, and the product of the magnitudes. -/
theorem valOf_mul_valOf (a b : Word) :
    valOf a * valOf b = withSign (signOf a != signOf b) (magOf a * magOf b) := by
  rw [valOf_eq_withSign, valOf_eq_withSign, withSign_mul]

/-! ### Finite operands -/

/-- The sign of a sum of finite patterns: that of the exact sum, and for a zero sum minus only where both
operands are (R66). -/
def sumSign (a b : Word) : Bool :=
  if valOf a + valOf b = 0 then signOf a && signOf b else decide (valOf a + valOf b < 0)

theorem valOf_add_valOf (a b : Word) :
    valOf a + valOf b = withSign (sumSign a b) (valOf a + valOf b).natAbs := by
  by_cases h : valOf a + valOf b = 0
  · simp [h]
  · rw [sumSign, if_neg h, withSign_natAbs]

theorem roundBits_zero (sh : Nat) : roundBits 0 sh = 0 := by
  have hd : dropBits 0 sh = sh := by simp [dropBits, bitLength]
  have hq : divRNE 0 sh = 0 := by simpa using divRNE_exact 0 sh
  rw [roundBits, hd, hq, Nat.sub_self, Nat.mul_zero, Nat.add_zero, Nat.min_zero]

/-- A sum of finite patterns is the rounding of the exact sum, under its sign. -/
theorem fadd_of_isFinite (d : Nat) (ha : isFinite a = true) (hb : isFinite b = true) :
    fadd d a b = packSign (sumSign a b) (roundBits (valOf a + valOf b).natAbs 0) := by
  have hfadd : fadd d a b = addFinite a b := by
    simp [fadd, isNaN_eq_false_of_isFinite, isInf_eq_false_of_isFinite, ha, hb]
  rw [hfadd, addFinite, sumSign]
  by_cases h : valOf a + valOf b = 0
  · rw [if_pos h, if_pos h, h, Int.natAbs_zero, roundBits_zero]
  · rw [if_neg h, if_neg h]

/-- A product of finite patterns is the rounding of the exact product, under the XOR of the signs. -/
theorem fmul_of_isFinite (d : Nat) (ha : isFinite a = true) (hb : isFinite b = true) :
    fmul d a b = packSign (signOf a != signOf b) (roundBits (magOf a * magOf b) 149) := by
  simp [fmul, isNaN_eq_false_of_isFinite, isInf_eq_false_of_isFinite, ha, hb]

/-! ### NaN results -/

/-- A sum is the quiet NaN of its draw, or no NaN at all. -/
theorem fadd_quietNaN_or (d : Nat) (a b : Word) :
    fadd d a b = quietNaN d ∨ isNaN (fadd d a b) = false := by
  by_cases hn : isNaN a = true ∨ isNaN b = true
  · exact .inl (fadd_of_isNaN d hn)
  · obtain ⟨ha, hb⟩ : isNaN a = false ∧ isNaN b = false := by simpa using hn
    rw [fadd, if_neg (by simp [ha, hb])]
    split
    · split
      · exact .inl rfl
      · exact .inr ha
    · split
      · exact .inr hb
      · next hia hib =>
        have hfa : isFinite a = true := by simp [isFinite, ha, hia]
        have hfb : isFinite b = true := by simp [isFinite, hb, hib]
        rw [addFinite]
        split
        · rw [← roundBits_zero 0]; exact .inr (isNaN_packSign_roundBits _ _ _)
        · exact .inr (isNaN_packSign_roundBits _ _ _)

theorem isNaN_infWord (s : Bool) : isNaN (infWord s) = false := by cases s <;> decide

/-- A product is the quiet NaN of its draw, or no NaN at all. -/
theorem fmul_quietNaN_or (d : Nat) (a b : Word) :
    fmul d a b = quietNaN d ∨ isNaN (fmul d a b) = false := by
  unfold fmul
  split
  · exact .inl rfl
  · split
    · exact .inl rfl
    · split
      · exact .inr (isNaN_infWord _)
      · exact .inr (isNaN_packSign_roundBits _ _ _)

/-- A result that is the quiet NaN of its draw, or no NaN, is quiet where it is a NaN. -/
theorem isQNaN_of_quietNaN_or {d : Nat} {r : Word} (h : r = quietNaN d ∨ isNaN r = false)
    (hr : isNaN r = true) : isQNaN r = true := by
  obtain rfl | hf := h
  · exact isQNaN_quietNaN d
  · rw [hr] at hf; cases hf

/-! ### Infinite operands -/

section infinity

variable (d : Nat) (ha : isInf a = true)
include ha

theorem fadd_of_opposite_infinities (hb : isInf b = true) (hs : signOf a ≠ signOf b) :
    fadd d a b = quietNaN d := by
  simp [fadd, isNaN_eq_false_of_isInf, ha, hb, hs]

theorem fadd_of_isInf_left (hn : isNaN b = false) (h : isInf b = true → signOf a = signOf b) :
    fadd d a b = a := by
  cases hb : isInf b
  · simp [fadd, isNaN_eq_false_of_isInf, ha, hb, hn]
  · simp [fadd, isNaN_eq_false_of_isInf, ha, hb, h hb]

theorem fadd_of_isInf_right (hb : isFinite b = true) : fadd d b a = a := by
  simp [fadd, isNaN_eq_false_of_isInf, isNaN_eq_false_of_isFinite, isInf_eq_false_of_isFinite, ha, hb]

theorem fmul_of_isInf_isZero (hb : isZero b = true) :
    fmul d a b = quietNaN d ∧ fmul d b a = quietNaN d := by
  simp [fmul, ha, hb]

theorem fmul_of_isInf (hz : isZero b = false) (hn : isNaN b = false) :
    fmul d a b = infWord (signOf a != signOf b) ∧ fmul d b a = infWord (signOf a != signOf b) := by
  simp [fmul, isNaN_eq_false_of_isInf, isZero_eq_false_of_isInf, ha, hz, hn, bne_comm]

end infinity

end Sys2Proof.Machine
end

section
/-! SUPPORT. Numerics family: a rounding is the nearest pattern, ties to even (R71), and where it overflows (R69). -/

namespace Sys2Proof.Machine

/-! ### The grid of a rounding: the multiples of its last place -/

/-- The idea of nearest: where `R` is at most half of `P` away from `x`, a number that differs from `R` by
a multiple of `P` lies farther away, or in a tie as far. -/
theorem farther_or_tie_of_dvd {P R V x : Int} (hR : 2 * |R - x| ≤ P) (hV : P ∣ V - R) (hne : V ≠ R) :
    |R - x| < |V - x| ∨ |R - x| = |V - x| ∧ 2 * |R - x| = P := by
  have hgap : P ≤ |V - R| := Int.le_of_dvd (abs_pos.mpr (sub_ne_zero.mpr hne)) ((dvd_abs _ _).mpr hV)
  have htri : |V - R| ≤ |V - x| + |R - x| := by
    rw [abs_sub_comm R x]; exact abs_sub_le V x R
  omega

theorem abs_withSign (s : Bool) (n : Nat) : |withSign s n| = n := by cases s <;> simp [withSign]

theorem dvd_withSign {s : Bool} {k n : Nat} (h : k ∣ n) : (k : Int) ∣ withSign s n := by
  have h' : (k : Int) ∣ n := Int.natCast_dvd_natCast.mpr h
  cases s
  · exact h'
  · exact (dvd_neg (b := (n : Int))).mpr h'

/-- A pattern's magnitude has at most 24 significant digits (R65). -/
theorem magOf_eq_mul_pow (w : Word) : ∃ f e, magOf w = f * 2 ^ e ∧ f < 2 ^ 24 := by
  have hf := fracOf_lt w
  by_cases h : expOf w = 0
  · exact ⟨fracOf w, 0, by simp [magOf, h], by omega⟩
  · exact ⟨2 ^ 23 + fracOf w, expOf w - 1, by rw [magOf, if_neg h], by omega⟩

theorem pow_le_of_lt_dropBits {n sh : Nat} (h : sh < dropBits n sh) :
    2 ^ (dropBits n sh + 23) ≤ n := by
  rw [← Nat.not_lt, ← bitLength_le_iff]
  unfold dropBits at *
  omega

/-- A pattern lies on the grid of a rounding, or below a point of it that the rounded number reaches. -/
theorem dvd_magOf_or_lt (w : Word) (n sh : Nat) :
    2 ^ dropBits n sh ∣ magOf w * 2 ^ sh ∨
      magOf w * 2 ^ sh < 2 ^ (dropBits n sh + 23) ∧ 2 ^ (dropBits n sh + 23) ≤ n := by
  obtain ⟨f, e, hm, hf⟩ := magOf_eq_mul_pow w
  have hmag : magOf w * 2 ^ sh = f * 2 ^ (e + sh) := by rw [hm, Nat.mul_assoc, Nat.pow_add]
  rw [hmag]
  obtain hlt | hle := Nat.lt_or_ge (e + sh) (dropBits n sh)
  · refine .inr ⟨?_, pow_le_of_lt_dropBits (by omega)⟩
    calc f * 2 ^ (e + sh) < 2 ^ 24 * 2 ^ (e + sh) :=
          Nat.mul_lt_mul_of_pos_right hf (Nat.two_pow_pos _)
      _ = 2 ^ (24 + (e + sh)) := (Nat.pow_add 2 _ _).symm
      _ ≤ 2 ^ (dropBits n sh + 23) := Nat.pow_le_pow_right (by decide) (by omega)
  · exact .inl ((pow_dvd_pow 2 hle).mul_left f)

/-! ### Nearest, ties to even -/

section nearest

variable (s : Bool) (n sh : Nat)

/-- The value a rounding stands for, in the units of the rounded number: its kept digits at their place. -/
def roundedVal : Int := withSign s (divRNE n (dropBits n sh) * 2 ^ dropBits n sh)

theorem roundedVal_near : 2 * |roundedVal s n sh - withSign s n| ≤ ((2 ^ dropBits n sh : Nat) : Int) := by
  obtain ⟨hlow, hhigh⟩ := divRNE_near n (dropBits n sh)
  rw [roundedVal, abs_withSign_sub]
  generalize divRNE n (dropBits n sh) * 2 ^ dropBits n sh = m at *
  generalize 2 ^ dropBits n sh = P at *
  omega

theorem dvd_roundedVal : ((2 ^ dropBits n sh : Nat) : Int) ∣ roundedVal s n sh :=
  dvd_withSign (Nat.dvd_mul_left _ _)

theorem divRNE_even_of_roundedVal_tie
    (h : 2 * |roundedVal s n sh - withSign s n| = ((2 ^ dropBits n sh : Nat) : Int)) :
    divRNE n (dropBits n sh) % 2 = 0 := by
  rw [roundedVal, abs_withSign_sub] at h
  apply divRNE_tie
  generalize divRNE n (dropBits n sh) * 2 ^ dropBits n sh = m at *
  generalize 2 ^ dropBits n sh = P at *
  omega

/-- No pattern lies nearer to a number than its rounding, and in a tie with another the last kept digit
is even. -/
theorem roundedVal_nearest (w : Word) (hne : valOf w * 2 ^ sh ≠ roundedVal s n sh) :
    |roundedVal s n sh - withSign s n| < |valOf w * 2 ^ sh - withSign s n| ∨
      |roundedVal s n sh - withSign s n| = |valOf w * 2 ^ sh - withSign s n| ∧
        divRNE n (dropBits n sh) % 2 = 0 := by
  have hR := roundedVal_near s n sh
  have hdvd := dvd_roundedVal s n sh
  have htie := divRNE_even_of_roundedVal_tie s n sh
  have hV : valOf w * 2 ^ sh = withSign (signOf w) (magOf w * 2 ^ sh) := by
    rw [valOf_eq_withSign, withSign_mul_two_pow]
  rw [hV] at hne ⊢
  obtain hgrid | ⟨hlt, hle⟩ := dvd_magOf_or_lt w n sh
  · exact (farther_or_tie_of_dvd hR (dvd_sub (dvd_withSign hgrid) hdvd) hne).imp_right
      (And.imp_right htie)
  · left
    have hS : |roundedVal s n sh - withSign s n| ≤
        |withSign s (2 ^ (dropBits n sh + 23)) - withSign s n| := by
      by_cases hSR : withSign s (2 ^ (dropBits n sh + 23)) = roundedVal s n sh
      · rw [hSR]
      · have hpow : 2 ^ dropBits n sh ∣ 2 ^ (dropBits n sh + 23) := pow_dvd_pow 2 (by omega)
        have := farther_or_tie_of_dvd hR (dvd_sub (dvd_withSign (s := s) hpow) hdvd) hSR
        omega
    have hreach : |withSign s n| - |withSign (signOf w) (magOf w * 2 ^ sh)| ≤
        |withSign (signOf w) (magOf w * 2 ^ sh) - withSign s n| := by
      rw [abs_sub_comm]; exact abs_sub_abs_le_abs_sub _ _
    rw [abs_withSign_sub s (2 ^ (dropBits n sh + 23))] at hS
    rw [abs_withSign, abs_withSign] at hreach
    generalize magOf w * 2 ^ sh = m at *
    generalize 2 ^ (dropBits n sh + 23) = G at *
    omega

/-- A finite rounding has the value of its kept digits at their place. -/
theorem valOf_packSign_roundBits (h : roundBits n sh ≠ infBits) :
    valOf (packSign s (roundBits n sh)) * 2 ^ sh = roundedVal s n sh := by
  rw [valOf_packSign s (roundBits_lt n sh), roundedVal, ← magBits_roundBits n sh h,
    withSign_mul_two_pow]

theorem getLsbD_zero_packSign (s : Bool) {p : Nat} (h : p < 2 ^ 31) :
    (packSign s p).getLsbD 0 = decide (p % 2 = 1) := by
  rw [BitVec.getLsbD, Nat.testBit_zero, packSign_toNat s h, Bool.eq_iff_iff, decide_eq_true_iff,
    decide_eq_true_iff]
  cases s <;> simp only [if_true, Bool.false_eq_true, if_false] <;> omega

/-- The last fraction bit of a finite rounding is its last kept digit's. -/
theorem roundBits_mod_two (h : roundBits n sh ≠ infBits) :
    roundBits n sh % 2 = divRNE n (dropBits n sh) % 2 := by
  unfold roundBits at *
  omega

theorem roundBits_ne_infBits_of_isFinite (h : isFinite (packSign s (roundBits n sh)) = true) :
    roundBits n sh ≠ infBits := by
  rw [Ne, ← isInf_packSign_roundBits s, isInf_eq_false_of_isFinite h]
  decide

/-- A finite rounding is the nearest pattern, and where another is as near its last fraction bit is 0. -/
theorem packSign_roundBits_nearest (h : isFinite (packSign s (roundBits n sh)) = true) (w : Word) :
    let r := packSign s (roundBits n sh)
    |valOf r * 2 ^ sh - withSign s n| ≤ |valOf w * 2 ^ sh - withSign s n| ∧
      (|valOf w * 2 ^ sh - withSign s n| = |valOf r * 2 ^ sh - withSign s n| →
        valOf w ≠ valOf r → r.getLsbD 0 = false) := by
  intro r
  have hfin := roundBits_ne_infBits_of_isFinite s n sh h
  have hval : valOf r * 2 ^ sh = roundedVal s n sh := valOf_packSign_roundBits s n sh hfin
  by_cases hw : valOf w = valOf r
  · exact ⟨by rw [hw], fun _ hne => absurd hw hne⟩
  · have hne : valOf w * 2 ^ sh ≠ roundedVal s n sh := by
      rw [← hval]
      exact fun heq => hw (mul_right_cancel₀ (by positivity) heq)
    rw [hval]
    obtain hlt | ⟨heq, heven⟩ := roundedVal_nearest s n sh w hne
    · exact ⟨hlt.le, fun htie => absurd htie hlt.ne'⟩
    · refine ⟨heq.le, fun _ _ => ?_⟩
      rw [getLsbD_zero_packSign s (roundBits_lt n sh), roundBits_mod_two n sh hfin, heven]
      rfl

end nearest

/-! ### Overflow (R69) -/

/-! With `m = 2^(252+sh)`, half of the largest binade's last place, the halfway point 2^128 − 2^103 is
`(2^25 - 1) * m` units of 2^-(149+sh). -/

theorem dropBits_le_of_lt_halfway {n sh : Nat} (h : n < (2 ^ 25 - 1) * 2 ^ (252 + sh)) :
    dropBits n sh ≤ 253 + sh := by
  have hlen : bitLength n ≤ 25 + (252 + sh) := by
    rw [bitLength_le_iff, Nat.pow_add]
    omega
  unfold dropBits
  omega

theorem le_dropBits_of_halfway_le {n sh : Nat} (h : (2 ^ 25 - 1) * 2 ^ (252 + sh) ≤ n) :
    253 + sh ≤ dropBits n sh := by
  have hlen : ¬ bitLength n ≤ 24 + (252 + sh) := by
    rw [bitLength_le_iff, Nat.pow_add]
    omega
  unfold dropBits
  omega

/-- In the largest binade the digits below the halfway point round to at most 24 ones. -/
theorem divRNE_lt_of_lt_halfway {n k : Nat} (h : n < (2 ^ 25 - 1) * 2 ^ k) :
    divRNE n (k + 1) < 2 ^ 24 := by
  obtain ⟨-, hnear⟩ := divRNE_near n (k + 1)
  rw [Nat.pow_succ] at hnear
  by_contra hge
  have := Nat.mul_le_mul_right (2 ^ k * 2) (Nat.not_lt.mp hge)
  omega

/-- In the largest binade the digits from the halfway point on round out of it, the tie because 24 ones
are odd. -/
theorem le_divRNE_of_halfway_le {n k : Nat} (h : (2 ^ 25 - 1) * 2 ^ k ≤ n) :
    2 ^ 24 ≤ divRNE n (k + 1) := by
  obtain ⟨hnear, -⟩ := divRNE_near n (k + 1)
  have htie := divRNE_tie n (k + 1)
  rw [Nat.pow_succ] at hnear htie
  have hpos := Nat.two_pow_pos k
  by_contra hlt
  obtain hless | hones : divRNE n (k + 1) ≤ 2 ^ 24 - 2 ∨ divRNE n (k + 1) = 2 ^ 24 - 1 := by omega
  · have := Nat.mul_le_mul_right (2 ^ k * 2) hless
    omega
  · rw [hones] at hnear htie
    omega

/-- From the halfway point 2^128 − 2^103 on a rounding is the infinity. -/
theorem roundBits_eq_infBits_of_halfway_le {n sh : Nat} (h : (2 ^ 25 - 1) * 2 ^ (252 + sh) ≤ n) :
    roundBits n sh = infBits := by
  obtain heq | hlt := (le_dropBits_of_halfway_le h).eq_or_lt
  · have hq := le_divRNE_of_halfway_le h
    rw [roundBits, ← heq, show 253 + sh = 252 + sh + 1 by omega, infBits]
    omega
  · have hq := divRNE_dropBits_ge n sh (by omega)
    rw [roundBits, infBits]
    omega

/-- Below the halfway point 2^128 − 2^103 a rounding is finite. -/
theorem roundBits_ne_infBits_of_lt_halfway {n sh : Nat} (h : n < (2 ^ 25 - 1) * 2 ^ (252 + sh)) :
    roundBits n sh ≠ infBits := by
  obtain heq | hlt := (dropBits_le_of_lt_halfway h).eq_or_lt
  · have hq := divRNE_lt_of_lt_halfway h
    rw [roundBits, heq, show 253 + sh = 252 + sh + 1 by omega, infBits]
    omega
  · have hq := divRNE_dropBits_le n sh
    rw [roundBits, infBits]
    omega

theorem halfway_eq (sh : Nat) :
    ((2 : Int) ^ 277 - 2 ^ 252) * 2 ^ sh = (((2 ^ 25 - 1) * 2 ^ (252 + sh) : Nat) : Int) := by
  rw [show 277 = 252 + 25 from rfl, pow_add, Nat.pow_add]
  push_cast
  ring

theorem decide_withSign_neg (s : Bool) {n : Nat} (h : 0 < n) : decide (withSign s n < 0) = s := by
  cases s
  · exact decide_eq_false (by simp [withSign])
  · exact decide_eq_true (by simpa [withSign] using h)

theorem packSign_roundBits_of_halfway_le (s : Bool) {n sh : Nat}
    (h : (2 ^ 277 - 2 ^ 252) * 2 ^ sh ≤ |withSign s n|) :
    packSign s (roundBits n sh) = infWord (decide (withSign s n < 0)) := by
  rw [abs_withSign, halfway_eq, Int.ofNat_le] at h
  have hpos : 0 < n := Nat.lt_of_lt_of_le (Nat.mul_pos (by decide) (Nat.two_pow_pos _)) h
  rw [roundBits_eq_infBits_of_halfway_le h, decide_withSign_neg s hpos, infWord]

theorem isFinite_packSign_roundBits (s : Bool) {n sh : Nat}
    (h : |withSign s n| < (2 ^ 277 - 2 ^ 252) * 2 ^ sh) :
    isFinite (packSign s (roundBits n sh)) = true := by
  rw [abs_withSign, halfway_eq, Int.ofNat_lt] at h
  have hinf : isInf (packSign s (roundBits n sh)) = false := by
    rw [← Bool.not_eq_true, isInf_packSign_roundBits]
    exact roundBits_ne_infBits_of_lt_halfway h
  rw [isFinite, isNaN_packSign_roundBits, hinf]
  rfl

end Sys2Proof.Machine
end

section
/-! SUPPORT. Numerics family: what a command reads is all that its results depend on (R56, R77). -/

namespace Sys2Proof.Machine

/-- A command computes one result from one set of operands and draws. -/
theorem afterCommand_get_congr {s t : State} {i : Instr} {r : DataReg} (hdraws : s.draws = t.draws)
    (h : ∀ q ∈ operandsRead i, s.get q = t.get q) (hr : r ∈ operandsWritten i) :
    (afterCommand i s).get r = (afterCommand i t).get r := by
  cases i <;>
    simp only [operandsRead, List.forall_mem_cons, get_xin, get_dl0, get_dl1, get_k0, get_k1, get_k2,
      get_k3, get_k4] at h <;>
    simp only [operandsWritten, List.mem_cons, List.not_mem_nil, or_false] at hr
  case ap1 => obtain rfl | rfl := hr <;> simp [afterCommand, h, hdraws]
  all_goals obtain rfl | rfl | rfl := hr <;> simp [afterCommand, h, hdraws]

/-- From one set of operands, whatever the draws, a command computes results that agree but for quiet
NaNs. -/
theorem afterCommand_sameUpToNaN_of_operands {s t : State} {i : Instr} {r : DataReg}
    (h : ∀ q ∈ operandsRead i, s.get q = t.get q) (hr : r ∈ operandsWritten i) :
    sameUpToNaN ((afterCommand i s).get r) ((afterCommand i t).get r) := by
  have hdraws := afterCommand_sameUpToNaN (s := s) (t := { s with draws := t.draws }) i
    (fun q _ => by cases q <;> exact .rfl) r
  have hoperands := afterCommand_get_congr (s := { s with draws := t.draws }) (t := t) rfl
    (fun q hq => by rw [← h q hq]; cases q <;> rfl) hr
  rwa [hoperands] at hdraws

end Sys2Proof.Machine
end

section
/-! The statements of the numerics family, settled. -/

namespace Sys2Proof.Machine

/-- Settles O13: the operands are R56's, and a command's results depend on them but for quiet NaNs. -/
theorem resultsDependOnlyOnOperands : Obligations.ResultsDependOnlyOnOperands := by
  unfold Obligations.ResultsDependOnlyOnOperands
  intro i s₁ s₂ t₁ t₂ hx hd0 hk0 hd1 hk1 hk ht₁ ht₂
  obtain rfl := exec_next _ ht₁
  obtain rfl := exec_next _ ht₂
  have hread : ∀ q ∈ operandsRead i, s₁.get q = s₂.get q := by
    cases i <;> simp_all [operandsRead]
  have hwritten {r : DataReg} (hr : r = .yout ∨ r = .dl0 ∨ (r = .dl1 ∧ i ≠ .ap1)) :=
    afterCommand_sameUpToNaN_of_operands hread ((mem_operandsWritten r i).mpr hr)
  exact ⟨hwritten (.inl rfl), hwritten (.inr (.inl rfl)),
    fun hi => hwritten (.inr (.inr ⟨rfl, hi⟩))⟩

/-- Settles O14: with a NaN operand the result is the quiet NaN of the draw, and every result is that or
no NaN. -/
theorem naNOperandsGiveQuietNaNs : Obligations.NaNOperandsGiveQuietNaNs := by
  unfold Obligations.NaNOperandsGiveQuietNaNs
  refine fun d a b => ⟨fun h => ?_, isQNaN_of_quietNaN_or (fadd_quietNaN_or d a b),
    isQNaN_of_quietNaN_or (fadd_quietNaN_or d a (neg b)),
    isQNaN_of_quietNaN_or (fmul_quietNaN_or d a b)⟩
  have hneg : isNaN a = true ∨ isNaN (neg b) = true := by rwa [isNaN_neg]
  rw [fsub, fadd_of_isNaN d h, fadd_of_isNaN d hneg, fmul_of_isNaN d h]
  simp

/-- Settles O15: a finite sum is the rounding of the exact sum in units of 2^-149. -/
theorem additionIsCorrectlyRounded : Obligations.AdditionIsCorrectlyRounded := by
  unfold Obligations.AdditionIsCorrectlyRounded
  intro d a b w ha hb hfin _
  rw [fadd_of_isFinite d ha hb] at hfin ⊢
  have hnear := packSign_roundBits_nearest _ _ _ hfin w
  simp only [← valOf_add_valOf, pow_zero, mul_one] at hnear
  exact hnear

/-- Settles O16: a finite product is the rounding of the exact product in units of 2^-298. -/
theorem multiplicationIsCorrectlyRounded : Obligations.MultiplicationIsCorrectlyRounded := by
  unfold Obligations.MultiplicationIsCorrectlyRounded
  intro d a b w ha hb hfin _
  rw [fmul_of_isFinite d ha hb] at hfin ⊢
  rw [valOf_mul_valOf]
  exact packSign_roundBits_nearest _ _ _ hfin w

/-- Settles O17: sums and products are roundings, and a rounding overflows from the halfway point on. -/
theorem overflowExactlyFromTheHalfwayPoint : Obligations.OverflowExactlyFromTheHalfwayPoint := by
  unfold Obligations.OverflowExactlyFromTheHalfwayPoint
  intro d a b ha hb
  rw [fadd_of_isFinite d ha hb, fmul_of_isFinite d ha hb, valOf_mul_valOf]
  have hsum := packSign_roundBits_of_halfway_le (sumSign a b) (n := (valOf a + valOf b).natAbs) (sh := 0)
  have hfin := isFinite_packSign_roundBits (sumSign a b) (n := (valOf a + valOf b).natAbs) (sh := 0)
  rw [← valOf_add_valOf, pow_zero, mul_one] at hsum hfin
  exact ⟨hsum, hfin, packSign_roundBits_of_halfway_le _, isFinite_packSign_roundBits _⟩

/-- Settles O18: the sign of a rounding is the one it is packed with. -/
theorem signsOfFiniteResults : Obligations.SignsOfFiniteResults := by
  unfold Obligations.SignsOfFiniteResults
  intro d a b ha hb
  rw [fadd_of_isFinite d ha hb, fmul_of_isFinite d ha hb, signOf_packSign _ (roundBits_lt _ _),
    signOf_packSign _ (roundBits_lt _ _)]
  refine ⟨fun h => ?_, fun h => by rw [sumSign, if_neg h], rfl⟩
  have hzero : signOf a = true → signOf b = true → isZero a = true := by
    intro hsa hsb
    rw [← magOf_eq_zero_iff]
    simp only [valOf_eq_withSign, hsa, hsb, withSign, if_true] at h
    omega
  rw [sumSign, if_pos h, h, Int.natAbs_zero, roundBits_zero]
  by_cases hs : signOf a = true ∧ signOf b = true
  · obtain ⟨hsa, hsb⟩ := hs
    rw [if_pos ⟨hzero hsa hsb, hsa, hsb⟩, hsa, hsb]
    rfl
  · have hplus : (signOf a && signOf b) = false := by simpa using hs
    rw [if_neg fun ⟨_, hs'⟩ => hs hs', hplus]
    rfl

/-- Settles O19: each case by its own rule. -/
theorem infinityArithmetic : Obligations.InfinityArithmetic := by
  unfold Obligations.InfinityArithmetic
  intro d a b ha
  refine ⟨fun hb hs => ?_, fun hb hs => ?_, fun hb => ?_, fun hb => ?_, fmul_of_isInf d ha⟩
  · rw [fadd_of_opposite_infinities d ha hb hs, fadd_of_opposite_infinities d hb ha hs.symm]
    simp
  · have hab : b = a := by rw [eq_infWord_of_isInf ha, eq_infWord_of_isInf hb, hs]
    rw [hab]
    exact ⟨fadd_of_isInf_left d ha (isNaN_eq_false_of_isInf ha) fun _ => rfl,
      fadd_of_isInf_left d ha (isNaN_eq_false_of_isInf ha) fun _ => rfl⟩
  · exact ⟨fadd_of_isInf_left d ha (isNaN_eq_false_of_isFinite hb)
      fun h => absurd h (by simp [isInf_eq_false_of_isFinite hb]), fadd_of_isInf_right d ha hb⟩
  · obtain ⟨hl, hr⟩ := fmul_of_isInf_isZero d ha hb
    rw [hl, hr]
    simp

/-- Settles O20: a difference is a sum with the negation, so the rules of zero sums and of opposite
infinities give its consequences. -/
theorem subtractionIsAdditionOfTheNegation : Obligations.SubtractionIsAdditionOfTheNegation := by
  unfold Obligations.SubtractionIsAdditionOfTheNegation
  have hself (d : Nat) {a : Word} (ha : isFinite a = true) : fsub d a a = 0x00000000#32 := by
    obtain ⟨hzero, -, -⟩ := signsOfFiniteResults d a (neg a) ha (by rwa [isFinite_neg])
    rw [fsub, hzero (by simp), if_neg (by simp)]
  refine ⟨fun d a b => ⟨rfl, getLsbD_neg b, hself d, fun ha => ?_⟩, fun d => ⟨hself d (by decide), ?_⟩⟩
  · rw [fsub, fadd_of_opposite_infinities d ha (by rwa [isInf_neg]) (by simp), isQNaN_quietNaN]
  · obtain ⟨hzero, -, -⟩ :=
      signsOfFiniteResults d 0x80000000#32 (neg 0x00000000#32) (by decide) (by decide)
    rw [fsub, hzero (by decide), if_pos (by decide)]

end Sys2Proof.Machine
end

section
/-! SUPPORT. Biquad family: sums and products that meet a zero, and how a quiet NaN spreads (R66 to R68, R72). -/

namespace Sys2Proof.Machine

variable {a b : Word} (d : Nat)

/-! ### The two zeros (R65) -/

@[simp] theorem signOf_packSign_zero (s : Bool) : signOf (packSign s 0) = s :=
  signOf_packSign s (by decide)

@[simp] theorem isZero_packSign_zero (s : Bool) : isZero (packSign s 0) = true := by
  cases s <;> decide

theorem isFinite_of_isZero (h : isZero a = true) : isFinite a = true := by
  rw [isFinite_iff, ((isZero_iff a).mp h).1]
  decide

theorem ieeeEq_of_isZero (ha : isZero a = true) (hb : isZero b = true) : ieeeEq a b = true := by
  simp [ieeeEq, isNaN_eq_false_of_isFinite, isFinite_of_isZero, ha, hb]

theorem ieeeEq_self_of_isFinite (h : isFinite a = true) : ieeeEq a a = true := by
  simp [ieeeEq, isNaN_eq_false_of_isFinite h]

/-! ### Sums, differences and products that are zeros -/

/-- A sum of two zeros is −0 only for (−0) + (−0) (R66). -/
theorem fadd_of_isZero (ha : isZero a = true) (hb : isZero b = true) :
    fadd d a b = packSign (signOf a && signOf b) 0 := by
  have hsum : valOf a + valOf b = 0 := by
    rw [(valOf_eq_zero_iff a).mpr ha, (valOf_eq_zero_iff b).mpr hb, add_zero]
  rw [fadd_of_isFinite d (isFinite_of_isZero ha) (isFinite_of_isZero hb), sumSign, if_pos hsum, hsum,
    Int.natAbs_zero, roundBits_zero]

/-- A zero plus +0 is +0 (R66). -/
theorem fadd_posZero_right (ha : isZero a = true) : fadd d a 0x00000000#32 = 0x00000000#32 := by
  rw [fadd_of_isZero d ha (by decide), show signOf 0x00000000#32 = false by decide, Bool.and_false]
  decide

/-- A difference of two zeros is −0 only for (−0) − (+0) (R67). -/
theorem fsub_of_isZero (ha : isZero a = true) (hb : isZero b = true) :
    fsub d a b = packSign (signOf a && !signOf b) 0 := by
  rw [fsub, fadd_of_isZero d ha (by rwa [isZero_neg]), signOf_neg]

/-- A finite number times a zero is a zero, of the XOR of the signs (R68). -/
theorem fmul_of_isZero_right (ha : isFinite a = true) (hb : isZero b = true) :
    fmul d a b = packSign (signOf a != signOf b) 0 := by
  rw [fmul_of_isFinite d ha (isFinite_of_isZero hb), (magOf_eq_zero_iff b).mpr hb, Nat.mul_zero,
    roundBits_zero]

/-- A zero times a finite number is a zero, of the XOR of the signs (R68). -/
theorem fmul_of_isZero_left (ha : isZero a = true) (hb : isFinite b = true) :
    fmul d a b = packSign (signOf a != signOf b) 0 := by
  rw [fmul_of_isFinite d (isFinite_of_isZero ha) hb, (magOf_eq_zero_iff a).mpr ha, Nat.zero_mul,
    roundBits_zero]

theorem isZero_fadd (ha : isZero a = true) (hb : isZero b = true) : isZero (fadd d a b) = true := by
  rw [fadd_of_isZero d ha hb, isZero_packSign_zero]

theorem isZero_fsub (ha : isZero a = true) (hb : isZero b = true) : isZero (fsub d a b) = true := by
  rw [fsub_of_isZero d ha hb, isZero_packSign_zero]

theorem isZero_fmul_right (ha : isFinite a = true) (hb : isZero b = true) :
    isZero (fmul d a b) = true := by
  rw [fmul_of_isZero_right d ha hb, isZero_packSign_zero]

theorem isZero_fmul_left (ha : isZero a = true) (hb : isFinite b = true) :
    isZero (fmul d a b) = true := by
  rw [fmul_of_isZero_left d ha hb, isZero_packSign_zero]

/-! ### The neutral operands -/

/-- Adding a zero to a zero may change its sign; adding it to any other finite number changes nothing. -/
theorem fadd_isZero_right (ha : isFinite a = true) (hb : isZero b = true) :
    (isZero a = true ∧ isZero (fadd d a b) = true) ∨ fadd d a b = a := by
  by_cases hza : isZero a = true
  · exact .inl ⟨hza, isZero_fadd d hza hb⟩
  · right
    have hsum : valOf a + valOf b = valOf a := by rw [(valOf_eq_zero_iff b).mpr hb, add_zero]
    have hne : valOf a ≠ 0 := by rwa [Ne, valOf_eq_zero_iff]
    have hpos : 0 < magOf a := by rwa [Nat.pos_iff_ne_zero, Ne, magOf_eq_zero_iff]
    have hround := packSign_roundBits_magOf a 0 ha
    rw [pow_zero, mul_one] at hround
    rw [fadd_of_isFinite d ha (isFinite_of_isZero hb), sumSign, hsum, if_neg hne, natAbs_valOf,
      valOf_eq_withSign, decide_withSign_neg _ hpos, hround]

/-- A finite number plus a zero compares equal to that number (R81). -/
theorem ieeeEq_fadd_isZero_right (ha : isFinite a = true) (hb : isZero b = true) :
    ieeeEq (fadd d a b) a = true := by
  obtain ⟨hza, hzr⟩ | hr := fadd_isZero_right d ha hb
  · exact ieeeEq_of_isZero hzr hza
  · rw [hr]
    exact ieeeEq_self_of_isFinite ha

theorem isFinite_fadd_isZero_right (ha : isFinite a = true) (hb : isZero b = true) :
    isFinite (fadd d a b) = true := by
  obtain ⟨-, hzr⟩ | hr := fadd_isZero_right d ha hb
  · exact isFinite_of_isZero hzr
  · rwa [hr]

/-- 1 is 2^149 units of 2^-149. -/
theorem magOf_one : magOf 0x3F800000#32 = 2 ^ 149 := by
  rw [magOf, show expOf 0x3F800000#32 = 127 by decide, show fracOf 0x3F800000#32 = 0 by decide]
  norm_num

/-- One times a finite number is that number, bit for bit: the product needs no rounding (R71). -/
theorem fmul_one_of_isFinite (ha : isFinite a = true) : fmul d 0x3F800000#32 a = a := by
  rw [fmul_of_isFinite d (by decide) ha, magOf_one, Nat.mul_comm,
    show signOf 0x3F800000#32 = false by decide, Bool.false_bne, packSign_roundBits_magOf a 149 ha]

/-- One times an infinity is that infinity (R68). -/
theorem fmul_one_of_isInf (ha : isInf a = true) : fmul d 0x3F800000#32 a = a := by
  obtain ⟨-, hprod⟩ := fmul_of_isInf (b := 0x3F800000#32) d ha (by decide) (by decide)
  rw [hprod, show signOf 0x3F800000#32 = false by decide, Bool.bne_false, ← eq_infWord_of_isInf ha]

/-! ### Quiet NaNs spread -/

theorem isQNaN_fadd_left (ha : isNaN a = true) : isQNaN (fadd d a b) = true := by
  rw [fadd_of_isNaN d (.inl ha), isQNaN_quietNaN]

theorem isQNaN_fsub_left (ha : isNaN a = true) : isQNaN (fsub d a b) = true :=
  isQNaN_fadd_left d ha

theorem isQNaN_fmul_right (hb : isNaN b = true) : isQNaN (fmul d a b) = true := by
  rw [fmul_of_isNaN d (.inr hb), isQNaN_quietNaN]

end Sys2Proof.Machine
end

section
/-! SUPPORT. Biquad family: what BIQUAD leaves in YOUT, DL0 and DL1, and the commands on zeros. -/

namespace Sys2Proof.Machine

variable (s : State)

/-! ### What BIQUAD computes (R79) -/

theorem afterCommand_biquad_yout :
    (afterCommand .biquad s).yout = fadd (s.draws + 1) (fmul (s.draws + 0) s.k2 s.xin) s.dl0 := rfl

theorem afterCommand_biquad_dl0 :
    (afterCommand .biquad s).dl0 = fadd (s.draws + 5) (fsub (s.draws + 4)
      (fmul (s.draws + 2) s.k3 s.xin) (fmul (s.draws + 3) s.k0 (afterCommand .biquad s).yout)) s.dl1 :=
  rfl

theorem afterCommand_biquad_dl1 :
    (afterCommand .biquad s).dl1 = fsub (s.draws + 8) (fmul (s.draws + 6) s.k4 s.xin)
      (fmul (s.draws + 7) s.k1 (afterCommand .biquad s).yout) := rfl

/-- Where `b1*x` and `b2*x` are NaNs, both delay elements become quiet NaNs. -/
theorem isQNaN_afterCommand_biquad_delay (h1 : isNaN (fmul (s.draws + 2) s.k3 s.xin) = true)
    (h2 : isNaN (fmul (s.draws + 6) s.k4 s.xin) = true) :
    isQNaN (afterCommand .biquad s).dl0 = true ∧ isQNaN (afterCommand .biquad s).dl1 = true := by
  rw [afterCommand_biquad_dl0, afterCommand_biquad_dl1]
  exact ⟨isQNaN_fadd_left _ (isNaN_of_isQNaN (isQNaN_fsub_left _ h1)), isQNaN_fsub_left _ h2⟩

/-! ### The commands on a zero sample and zero delay elements -/

section zeros

variable {s} (hx : isZero s.xin = true) (hd0 : isZero s.dl0 = true) (hk0 : isFinite s.k0 = true)
include hx hd0 hk0

theorem isZero_afterCommand_biquad (hd1 : isZero s.dl1 = true) (hk1 : isFinite s.k1 = true)
    (hk2 : isFinite s.k2 = true) (hk3 : isFinite s.k3 = true) (hk4 : isFinite s.k4 = true) :
    isZero (afterCommand .biquad s).yout = true ∧ isZero (afterCommand .biquad s).dl0 = true ∧
      isZero (afterCommand .biquad s).dl1 = true := by
  have hy : isZero (afterCommand .biquad s).yout = true :=
    isZero_fadd _ (isZero_fmul_right _ hk2 hx) hd0
  have hin := isZero_fsub (s.draws + 4) (isZero_fmul_right (s.draws + 2) hk3 hx)
    (isZero_fmul_right (s.draws + 3) hk0 hy)
  exact ⟨hy, isZero_fadd _ hin hd1,
    isZero_fsub _ (isZero_fmul_right _ hk4 hx) (isZero_fmul_right _ hk1 hy)⟩

theorem isZero_afterCommand_ap1 :
    isZero (afterCommand .ap1 s).yout = true ∧ isZero (afterCommand .ap1 s).dl0 = true := by
  have hm := isZero_fmul_left (s.draws + 1) (isZero_fsub (s.draws + 0) hx hd0) hk0
  exact ⟨isZero_fadd _ hm hd0, isZero_fadd _ hx hm⟩

theorem isZero_afterCommand_ap2 (hd1 : isZero s.dl1 = true) (hk1 : isFinite s.k1 = true) :
    isZero (afterCommand .ap2 s).yout = true ∧ isZero (afterCommand .ap2 s).dl0 = true ∧
      isZero (afterCommand .ap2 s).dl1 = true := by
  have hsum := isZero_fmul_right (s.draws + 1) hk0 (isZero_fadd (s.draws + 0) hx hd1)
  have ht := isZero_fadd (s.draws + 3) hsum (isZero_fmul_right (s.draws + 2) hk1 hd0)
  exact ⟨isZero_fadd _ ht hd1, isZero_fsub _ hx ht, hd0⟩

theorem isZero_afterCommand_dcblk (hd1 : isZero s.dl1 = true) :
    isZero (afterCommand .dcblk s).yout = true ∧ isZero (afterCommand .dcblk s).dl0 = true ∧
      isZero (afterCommand .dcblk s).dl1 = true := by
  have hy : isZero (afterCommand .dcblk s).yout = true :=
    isZero_fadd _ (isZero_fsub _ hx hd0) (isZero_fmul_right _ hk0 hd1)
  exact ⟨hy, hx, hy⟩

end zeros

end Sys2Proof.Machine
end

section
/-! SUPPORT. Biquad family: BIQUAD in exact arithmetic, its signals as power series in z⁻¹ (R80). -/

namespace Sys2Proof.Machine

variable {R : Type} [CommRing R]

/-- A signal that starts at zero and then repeats another one sample later is z⁻¹ times it. -/
theorem mk_eq_X_mul_mk {d e : Nat → R} (h0 : d 0 = 0) (h : ∀ n, d (n + 1) = e n) :
    PowerSeries.mk d = PowerSeries.X * PowerSeries.mk e := by
  ext n
  cases n with
  | zero => simp [h0]
  | succ n => simp [PowerSeries.coeff_succ_X_mul, h]

variable (c : BiquadCoef R) (x : Nat → R)

/-- The delay element `dl[0]` of BIQUAD before each sample, from the zero delay line. -/
def biquadDl0 (n : Nat) : R := (delayAt (biquadExact c) x (0, 0) n).1

/-- The delay element `dl[1]` of BIQUAD before each sample, from the zero delay line. -/
def biquadDl1 (n : Nat) : R := (delayAt (biquadExact c) x (0, 0) n).2

/-- The output signal of BIQUAD from the zero delay line. -/
def biquadOut : Nat → R := outputAt (biquadExact c) x (0, 0)

theorem biquadOut_eq (n : Nat) : biquadOut c x n = c.b0 * x n + biquadDl0 c x n := rfl

theorem biquadDl0_succ (n : Nat) :
    biquadDl0 c x (n + 1) = c.b1 * x n - c.a0 * biquadOut c x n + biquadDl1 c x n := rfl

theorem biquadDl1_succ (n : Nat) :
    biquadDl1 c x (n + 1) = c.b2 * x n - c.a1 * biquadOut c x n := rfl

theorem mk_biquadOut : PowerSeries.mk (biquadOut c x) =
    PowerSeries.C c.b0 * PowerSeries.mk x + PowerSeries.mk (biquadDl0 c x) := by
  ext n
  simp [biquadOut_eq]

theorem mk_biquadDl0 : PowerSeries.mk (biquadDl0 c x) = PowerSeries.X *
    (PowerSeries.C c.b1 * PowerSeries.mk x - PowerSeries.C c.a0 * PowerSeries.mk (biquadOut c x) +
      PowerSeries.mk (biquadDl1 c x)) := by
  rw [mk_eq_X_mul_mk rfl (biquadDl0_succ c x)]
  congr 1
  ext n
  simp

theorem mk_biquadDl1 : PowerSeries.mk (biquadDl1 c x) = PowerSeries.X *
    (PowerSeries.C c.b2 * PowerSeries.mk x - PowerSeries.C c.a1 * PowerSeries.mk (biquadOut c x)) := by
  rw [mk_eq_X_mul_mk rfl (biquadDl1_succ c x)]
  congr 1
  ext n
  simp

end Sys2Proof.Machine
end

section
/-! The statements of the biquad family, settled. -/

namespace Sys2Proof.Machine

/-- Settles O21: 1 · x is x and adding a zero keeps its value; the other coefficients are zeros, and so are
the products that reach the delay line. -/
theorem biquadIdentityPassthrough : Obligations.BiquadIdentityPassthrough := by
  unfold Obligations.BiquadIdentityPassthrough
  intro s hk0 hk1 hk2 hk3 hk4 hd0 hd1 hx
  have hout : (afterCommand .biquad s).yout = fadd (s.draws + 1) s.xin s.dl0 := by
    rw [afterCommand_biquad_yout, hk2, fmul_one_of_isFinite _ hx]
  have hy : isFinite (afterCommand .biquad s).yout = true := by
    rw [hout]
    exact isFinite_fadd_isZero_right _ hx hd0
  have hzero (d : Nat) {a : Word} (ha : isFinite a = true) : isZero (fmul d 0x00000000#32 a) = true :=
    isZero_fmul_left d (by decide) ha
  refine ⟨_, exec_eq s .biquad, ?_, ?_, ?_⟩
  · rw [hout]
    exact ieeeEq_fadd_isZero_right _ hx hd0
  · rw [afterCommand_biquad_dl0, hk3, hk0]
    exact isZero_fadd _ (isZero_fsub _ (hzero _ hx) (hzero _ hy)) hd1
  · rw [afterCommand_biquad_dl1, hk4, hk1]
    exact isZero_fsub _ (hzero _ hx) (hzero _ hy)

/-- Settles O22: −0 follows the sign rules of zeros; an infinite or NaN sample makes `b1*x` and `b2*x` NaNs,
which spread to the delay line. -/
theorem biquadIdentityLimits : Obligations.BiquadIdentityLimits := by
  unfold Obligations.BiquadIdentityLimits
  intro s hk0 hk1 hk2 hk3 hk4 hd0 hd1
  refine ⟨_, exec_eq s .biquad, fun hx => ?_, fun hx => ?_, fun hx => ?_⟩
  · have hy : (afterCommand .biquad s).yout = 0x00000000#32 := by
      rw [afterCommand_biquad_yout, hk2, hx, hd0, fmul_one_of_isFinite _ (by decide),
        fadd_posZero_right _ (by decide)]
    have hminus (d : Nat) : fmul d 0x00000000#32 0x80000000#32 = 0x80000000#32 :=
      fmul_of_isZero_left d (by decide) (by decide)
    have hplus (d : Nat) : fmul d 0x00000000#32 0x00000000#32 = 0x00000000#32 :=
      fmul_of_isZero_left d (by decide) (by decide)
    have hdiff (d : Nat) : fsub d 0x80000000#32 0x00000000#32 = 0x80000000#32 :=
      fsub_of_isZero d (by decide) (by decide)
    refine ⟨hy, ?_, ?_⟩
    · rw [afterCommand_biquad_dl0, hy, hk3, hk0, hx, hd1, hminus, hplus, hdiff,
        fadd_posZero_right _ (by decide)]
    · rw [afterCommand_biquad_dl1, hy, hk4, hk1, hx, hminus, hplus, hdiff]
  · have hnan (d : Nat) : isNaN (fmul d 0x00000000#32 s.xin) = true := by
      rw [(fmul_of_isInf_isZero d hx (by decide)).2, isNaN_quietNaN]
    refine ⟨?_, isQNaN_afterCommand_biquad_delay s (by rw [hk3, hnan]) (by rw [hk4, hnan])⟩
    rw [afterCommand_biquad_yout, hk2, hd0, fmul_one_of_isInf _ hx,
      fadd_of_isInf_left _ hx (by decide) (fun h => absurd h (by decide))]
  · have hnan (d : Nat) (k : Word) : isNaN (fmul d k s.xin) = true :=
      isNaN_of_isQNaN (isQNaN_fmul_right d hx)
    obtain ⟨hq0, hq1⟩ := isQNaN_afterCommand_biquad_delay s (hnan _ _) (hnan _ _)
    exact ⟨isQNaN_fadd_left _ (hnan _ _), hq0, hq1, by simp [ieeeEq, hx]⟩

/-- Settles O23: every product is a zero with the sign of its coefficient, and a sum or difference of zeros
is −0 only where both of its terms are. -/
theorem biquadZeroSigns : Obligations.BiquadZeroSigns := by
  unfold Obligations.BiquadZeroSigns
  intro s hx hd0 hd1 hk0 hk1 hk2 hk3 hk4
  have hprod (d : Nat) {k : Word} (hk : isFinite k = true) :
      fmul d k 0x00000000#32 = packSign (signOf k) 0 := by
    rw [fmul_of_isZero_right d hk (by decide), show signOf 0x00000000#32 = false by decide, Bool.bne_false]
  have hy : (afterCommand .biquad s).yout = 0x00000000#32 := by
    rw [afterCommand_biquad_yout, hx, hd0, hprod _ hk2, fadd_posZero_right _ (isZero_packSign_zero _)]
  refine ⟨_, exec_eq s .biquad, hy, ?_, ?_⟩
  · rw [afterCommand_biquad_dl0, hy, hx, hd1, hprod _ hk3, hprod _ hk0,
      fadd_posZero_right _ (isZero_fsub _ (isZero_packSign_zero _) (isZero_packSign_zero _))]
  · rw [afterCommand_biquad_dl1, hy, hx, hprod _ hk4, hprod _ hk1,
      fsub_of_isZero _ (isZero_packSign_zero _) (isZero_packSign_zero _), signOf_packSign_zero,
      signOf_packSign_zero]
    cases signOf s.k4 <;> cases signOf s.k1 <;> decide

/-- Settles O24: sums and differences of zeros, and their products with finite coefficients, are zeros. -/
theorem zeroInputZeroStateFixedPoint : Obligations.ZeroInputZeroStateFixedPoint := by
  unfold Obligations.ZeroInputZeroStateFixedPoint
  intro i s hx hd0 hk0 hd1 hk1 hk
  refine ⟨_, exec_eq s i, ?_⟩
  cases i with
  | biquad =>
    obtain ⟨hk2, hk3, hk4⟩ := hk rfl
    obtain ⟨hy, he0, he1⟩ :=
      isZero_afterCommand_biquad hx hd0 hk0 (hd1 (by decide)) (hk1 (.inl rfl)) hk2 hk3 hk4
    exact ⟨hy, he0, fun _ => he1, fun h => absurd h (by decide)⟩
  | ap1 =>
    obtain ⟨hy, he0⟩ := isZero_afterCommand_ap1 hx hd0 hk0
    exact ⟨hy, he0, fun h => absurd rfl h, fun _ => afterCommand_ap1_dl1 s⟩
  | ap2 =>
    obtain ⟨hy, he0, he1⟩ := isZero_afterCommand_ap2 hx hd0 hk0 (hd1 (by decide)) (hk1 (.inr rfl))
    exact ⟨hy, he0, fun _ => he1, fun h => absurd h (by decide)⟩
  | dcblk =>
    obtain ⟨hy, he0, he1⟩ := isZero_afterCommand_dcblk hx hd0 hk0 (hd1 (by decide))
    exact ⟨hy, he0, fun _ => he1, fun h => absurd h (by decide)⟩

/-- Settles O25: the output is `b0·x + dl[0]`, each delay element is z⁻¹ times what is written to it, and
eliminating the two elements leaves the transfer function. -/
theorem biquadTransferFunction : Obligations.BiquadTransferFunction := by
  unfold Obligations.BiquadTransferFunction
  intro R _ c x
  change PowerSeries.mk (biquadOut c x) * _ = _ * PowerSeries.mk x
  linear_combination mk_biquadOut c x + mk_biquadDl0 c x + PowerSeries.X * mk_biquadDl1 c x

/-- Settles O7: every command completes, and BIQUAD's three results are the pseudocode's. -/
theorem biquadResult : Obligations.BiquadResult := by
  unfold Obligations.BiquadResult
  exact fun s => ⟨_, exec_eq s .biquad, afterCommand_biquad_yout s, afterCommand_biquad_dl0 s,
    afterCommand_biquad_dl1 s⟩

end Sys2Proof.Machine
end

section
/-! SUPPORT. First-order allpass family: what AP1 leaves in YOUT and DL0, and AP1 in exact arithmetic, its signals as power series in z⁻¹ (R83, R84). -/

namespace Sys2Proof.Machine

/-! ### What AP1 computes (R83) -/

section command

variable (s : State)

theorem afterCommand_ap1_yout : (afterCommand .ap1 s).yout =
    fadd (s.draws + 3) (fmul (s.draws + 1) (fsub (s.draws + 0) s.xin s.dl0) s.k0) s.dl0 := rfl

theorem afterCommand_ap1_dl0 : (afterCommand .ap1 s).dl0 =
    fadd (s.draws + 2) s.xin (fmul (s.draws + 1) (fsub (s.draws + 0) s.xin s.dl0) s.k0) := rfl

end command

/-! ### The signals of AP1 from the zero delay line (R84) -/

section signals

variable {R : Type} [CommRing R] (b : R) (x : Nat → R)

/-- The delay element of AP1 before each sample, from the zero delay line. -/
def ap1Delay : Nat → R := delayAt (ap1Exact b) x 0

/-- The output signal of AP1 from the zero delay line. -/
def ap1Out : Nat → R := outputAt (ap1Exact b) x 0

theorem ap1Out_eq (n : Nat) : ap1Out b x n = (x n - ap1Delay b x n) * b + ap1Delay b x n := rfl

theorem ap1Delay_succ (n : Nat) :
    ap1Delay b x (n + 1) = x n + (x n - ap1Delay b x n) * b := rfl

theorem mk_ap1Out : PowerSeries.mk (ap1Out b x) =
    (PowerSeries.mk x - PowerSeries.mk (ap1Delay b x)) * PowerSeries.C b +
      PowerSeries.mk (ap1Delay b x) := by
  ext n
  simp [ap1Out_eq]

theorem mk_ap1Delay : PowerSeries.mk (ap1Delay b x) = PowerSeries.X * (PowerSeries.mk x +
    (PowerSeries.mk x - PowerSeries.mk (ap1Delay b x)) * PowerSeries.C b) := by
  refine (mk_eq_X_mul_mk rfl (ap1Delay_succ b x)).trans ?_
  congr 1
  ext n
  simp

end signals

end Sys2Proof.Machine
end

section
/-! The statements of the first-order allpass family, settled. -/

namespace Sys2Proof.Machine

/-- Settles O26: with `T` the delay element, `Y = b·X + (1 − b)·T` and `(1 + b·z⁻¹)·T = z⁻¹·(1 + b)·X`;
eliminating `T` leaves the transfer function. -/
theorem ap1TransferFunction : Obligations.Ap1TransferFunction := by
  unfold Obligations.Ap1TransferFunction
  intro R _ b x
  change PowerSeries.mk (ap1Out b x) * _ = _ * PowerSeries.mk x
  linear_combination (1 + PowerSeries.C b * PowerSeries.X) * mk_ap1Out b x +
    (1 - PowerSeries.C b) * mk_ap1Delay b x

/-- Settles O8: every command completes, AP1's two results are the pseudocode's, and it does not write
DL1. -/
theorem ap1Result : Obligations.Ap1Result := by
  unfold Obligations.Ap1Result
  exact fun s => ⟨_, exec_eq s .ap1, afterCommand_ap1_yout s, afterCommand_ap1_dl0 s,
    afterCommand_ap1_dl1 s⟩

end Sys2Proof.Machine
end

section
/-! SUPPORT. Second-order allpass family: what AP2 leaves in YOUT, DL0 and DL1, and AP2 in exact arithmetic, its signals as power series in z⁻¹ (R87, R88). -/

namespace Sys2Proof.Machine

/-! ### What AP2 computes (R87) -/

section command

variable (s : State)

/-- The pseudocode's `t` in binary32, the draws counted from the state's. -/
def ap2T : Word :=
  fadd (s.draws + 3) (fmul (s.draws + 1) s.k0 (fadd (s.draws + 0) s.xin s.dl1))
    (fmul (s.draws + 2) s.k1 s.dl0)

theorem afterCommand_ap2_yout :
    (afterCommand .ap2 s).yout = fadd (s.draws + 4) (ap2T s) s.dl1 := rfl

theorem afterCommand_ap2_dl0 :
    (afterCommand .ap2 s).dl0 = fsub (s.draws + 5) s.xin (ap2T s) := rfl

/-- DL1 takes the old DL0, bits kept. -/
theorem afterCommand_ap2_dl1 : (afterCommand .ap2 s).dl1 = s.dl0 := rfl

end command

/-! ### The signals of AP2 from the zero delay line (R88) -/

section signals

variable {R : Type} [CommRing R] (c3 c2 : R) (x : Nat → R)

/-- The first delay element of AP2 before each sample, from the zero delay line. -/
def ap2Dl0 (n : Nat) : R := (delayAt (ap2Exact c3 c2) x (0, 0) n).1

/-- The second delay element of AP2 before each sample, from the zero delay line. -/
def ap2Dl1 (n : Nat) : R := (delayAt (ap2Exact c3 c2) x (0, 0) n).2

/-- The output signal of AP2 from the zero delay line. -/
def ap2Out : Nat → R := outputAt (ap2Exact c3 c2) x (0, 0)

theorem ap2Out_eq (n : Nat) : ap2Out c3 c2 x n =
    c3 * (x n + ap2Dl1 c3 c2 x n) + c2 * ap2Dl0 c3 c2 x n + ap2Dl1 c3 c2 x n := rfl

theorem ap2Dl0_succ (n : Nat) : ap2Dl0 c3 c2 x (n + 1) =
    x n - (c3 * (x n + ap2Dl1 c3 c2 x n) + c2 * ap2Dl0 c3 c2 x n) := rfl

theorem ap2Dl1_succ (n : Nat) : ap2Dl1 c3 c2 x (n + 1) = ap2Dl0 c3 c2 x n := rfl

theorem mk_ap2Out : PowerSeries.mk (ap2Out c3 c2 x) =
    PowerSeries.C c3 * (PowerSeries.mk x + PowerSeries.mk (ap2Dl1 c3 c2 x)) +
      PowerSeries.C c2 * PowerSeries.mk (ap2Dl0 c3 c2 x) + PowerSeries.mk (ap2Dl1 c3 c2 x) := by
  ext n
  simp [ap2Out_eq]

theorem mk_ap2Dl0 : PowerSeries.mk (ap2Dl0 c3 c2 x) = PowerSeries.X * (PowerSeries.mk x -
    (PowerSeries.C c3 * (PowerSeries.mk x + PowerSeries.mk (ap2Dl1 c3 c2 x)) +
      PowerSeries.C c2 * PowerSeries.mk (ap2Dl0 c3 c2 x))) := by
  refine (mk_eq_X_mul_mk rfl (ap2Dl0_succ c3 c2 x)).trans ?_
  congr 1
  ext n
  simp

theorem mk_ap2Dl1 : PowerSeries.mk (ap2Dl1 c3 c2 x) =
    PowerSeries.X * PowerSeries.mk (ap2Dl0 c3 c2 x) :=
  mk_eq_X_mul_mk rfl (ap2Dl1_succ c3 c2 x)

end signals

end Sys2Proof.Machine
end

section
/-! The statements of the second-order allpass family, settled. -/

namespace Sys2Proof.Machine

/-- Settles O27: with `P`, `Q` the delay elements, `Y = c3·(X + Q) + c2·P + Q`, `Q = z⁻¹·P` and
`P = z⁻¹·(X − (c3·(X + Q) + c2·P))`; eliminating `P` and `Q` leaves the transfer function. -/
theorem ap2TransferFunction : Obligations.Ap2TransferFunction := by
  unfold Obligations.Ap2TransferFunction
  intro R _ c3 c2 x
  change PowerSeries.mk (ap2Out c3 c2 x) * _ = _ * PowerSeries.mk x
  linear_combination
    (1 + PowerSeries.C c2 * PowerSeries.X + PowerSeries.C c3 * PowerSeries.X ^ 2) *
      mk_ap2Out c3 c2 x +
    (PowerSeries.C c2 + (1 + PowerSeries.C c3) * PowerSeries.X) * mk_ap2Dl0 c3 c2 x +
    (1 + PowerSeries.C c3 + PowerSeries.C c2 * PowerSeries.X) * mk_ap2Dl1 c3 c2 x

/-- Settles O9: every command completes, AP2's `YOUT` and `DL0` are the pseudocode's, and DL1 takes the
old DL0. -/
theorem ap2Result : Obligations.Ap2Result := by
  unfold Obligations.Ap2Result
  exact fun s => ⟨_, exec_eq s .ap2, afterCommand_ap2_yout s, afterCommand_ap2_dl0 s,
    afterCommand_ap2_dl1 s⟩

end Sys2Proof.Machine
end

section
/-! SUPPORT. DC-block family: what DCBLK leaves in YOUT, DL0 and DL1, and its difference equation in exact arithmetic (R91, R92). -/

namespace Sys2Proof.Machine

/-! ### What DCBLK computes (R91) -/

section command

variable (s : State)

theorem afterCommand_dcblk_yout : (afterCommand .dcblk s).yout =
    fadd (s.draws + 2) (fsub (s.draws + 0) s.xin s.dl0) (fmul (s.draws + 1) s.k0 s.dl1) := rfl

/-- DL0 takes XIN, bits kept. -/
theorem afterCommand_dcblk_dl0 : (afterCommand .dcblk s).dl0 = s.xin := rfl

/-- DL1 takes the new output sample, bits kept. -/
theorem afterCommand_dcblk_dl1 :
    (afterCommand .dcblk s).dl1 = (afterCommand .dcblk s).yout := rfl

end command

/-! ### The output signal of DCBLK from the zero delay line (R92) -/

section signals

variable {R : Type} [CommRing R] (b : R) (x : Nat → R)

/-- The output signal of DCBLK from the zero delay line. -/
def dcblkOut : Nat → R := outputAt (dcblkExact b) x (0, 0)

theorem dcblkOut_zero : dcblkOut b x 0 = x 0 := by
  change x 0 - 0 + b * 0 = x 0
  ring

/-- The difference equation: the delay line before a sample holds the sample and the output before it. -/
theorem dcblkOut_succ (n : Nat) :
    dcblkOut b x (n + 1) = x (n + 1) - x n + b * dcblkOut b x n := rfl

/-- The difference equation as power series in z⁻¹. -/
theorem mk_dcblkOut : PowerSeries.mk (dcblkOut b x) =
    PowerSeries.mk x - PowerSeries.X * PowerSeries.mk x +
      PowerSeries.C b * (PowerSeries.X * PowerSeries.mk (dcblkOut b x)) := by
  ext n
  cases n with
  | zero => simp [dcblkOut_zero]
  | succ n => simp [PowerSeries.coeff_succ_X_mul, dcblkOut_succ]

end signals

end Sys2Proof.Machine
end

section
/-! The statements of the DC-block family, settled. -/

namespace Sys2Proof.Machine

/-- Settles O28: the difference equation `Y = X − z⁻¹·X + b·z⁻¹·Y`, with the terms in `Y` on one side. -/
theorem dcblkTransferFunction : Obligations.DcblkTransferFunction := by
  unfold Obligations.DcblkTransferFunction
  intro R _ b x
  change PowerSeries.mk (dcblkOut b x) * _ = _ * PowerSeries.mk x
  linear_combination mk_dcblkOut b x

/-- Settles O29, by induction on the sample number: after the first sample a constant input cancels in the
difference equation, which leaves `y[n+1] = b·y[n]`. -/
theorem dcblkStepResponse : Obligations.DcblkStepResponse := by
  unfold Obligations.DcblkStepResponse
  intro R _ b n
  change dcblkOut b (fun _ => 1) n = b ^ n
  induction n with
  | zero => rw [dcblkOut_zero, pow_zero]
  | succ n ih => rw [dcblkOut_succ, ih, sub_self, zero_add, pow_succ']

/-- Settles O10: every command completes, DCBLK's output sample is the pseudocode's, and the delay line takes
XIN and the output sample as they are. -/
theorem dcblkResult : Obligations.DcblkResult := by
  unfold Obligations.DcblkResult
  exact fun s => ⟨_, exec_eq s .dcblk, afterCommand_dcblk_yout s, afterCommand_dcblk_dl0 s,
    afterCommand_dcblk_dl1 s⟩

end Sys2Proof.Machine
end

section
/-! SUPPORT. Exceptions family: what one effect can do to ILLCMD and to the events, and which bad accesses the strict step sees (R95 to R98, R101). -/

namespace Sys2Proof.Machine

variable {s t : State} {q : Request} {rest : List Request} {agent : Nat} {a : Access}

/-! ### ILLCMD rises and falls (R96, R101, R112) -/

/-- ILLCMD rises only by an illegal command word (R96). -/
theorem effect_illcmd_rises (h : Effect s q t) (hs : s.illcmd = false) (ht : t.illcmd = true) :
    ∃ v, q.act = .access (hostWriteAt (offsetOf .cmd) v) ∧ rsvdField v ≠ 0#30 := by
  cases h with
  | illegal agent v hv => exact ⟨v, rfl, hv⟩
  | status => simp [illcmd_of_writeStatus s ht] at hs
  | reset => simp at ht
  | _ => simp [hs] at ht

/-- A write of STATUS that takes ILLCMD down has bit 0 set (R27). -/
theorem getLsbD_of_writeStatus_clears {v : Word} (hs : s.illcmd = true)
    (ht : (writeStatus v s).illcmd = false) : v.getLsbD 0 = true := by
  by_contra hv
  rw [writeStatus, if_neg hv, hs] at ht
  cases ht

/-- ILLCMD falls only by a write of STATUS with bit 0 set or a platform reset (R101, R112). -/
theorem effect_illcmd_falls (h : Effect s q t) (hs : s.illcmd = true) (ht : t.illcmd = false) :
    q.act = .platformReset ∨
      ∃ v, q.act = .access (hostWriteAt (offsetOf .status) v) ∧ v.getLsbD 0 = true := by
  cases h with
  | status agent v => exact .inr ⟨v, rfl, getLsbD_of_writeStatus_clears hs ht⟩
  | reset => exact .inl rfl
  | illegal => simp at ht
  | _ => simp [hs] at ht

/-! ### At most one event (R98) -/

theorem noteUninit_events_cases (s : State) (rs : List DataReg) :
    (noteUninit rs s).events = s.events ∨ ∃ e, (noteUninit rs s).events = s.events ++ [e] := by
  obtain ⟨-, e⟩ | ⟨r, -, e⟩ := noteUninit_cases s rs
  · exact .inl (by rw [e])
  · exact .inr ⟨.uninit r, by rw [e, note_events]⟩

/-- An effect records at most one event. -/
theorem effect_events_cases (h : Effect s q t) :
    t.events = s.events ∨ ∃ e, t.events = s.events ++ [e] := by
  cases h with
  | read agent r => simpa using noteUninit_events_cases s (readsOf r)
  | command agent v i => simpa using noteUninit_events_cases s (operandsRead i)
  | illegal => exact .inr ⟨.illegalCommand, by simp⟩
  | _ => exact .inl (by simp)

theorem step_events_cases (h : step s = .next t) :
    t.events = s.events ∨ ∃ e, t.events = s.events ++ [e] := by
  obtain ⟨-, rfl⟩ | ⟨q, rest, -, he⟩ := step_next s h
  · exact .inl rfl
  · exact effect_events_cases (s := { s with port := rest }) he

/-! ### Bad accesses come before Uninit (R98) -/

/-- A bad access reads no register (R95). -/
theorem requestReads_badAccess (agent : Nat) (ha : badAccess a) :
    requestReads (hostRequest agent a) = [] := by
  have hbad : ¬ (shapeOk a = true ∧ (regAt a.off).isSome = true) := by
    rw [← wellFormed_iff, badAccess_iff.mp ha]
    exact Bool.false_ne_true
  by_cases hshape : shapeOk a = true
  · have hreg : regAt a.off = none := by simpa [hshape] using hbad
    simp [requestReads, hostRequest, hreg]
  · simp [requestReads, hostRequest, hshape]

theorem strictStep_badAccess (h : s.port = hostRequest agent a :: rest) (ha : badAccess a) :
    strictStep s = .fault (.busError a.off) := by
  rw [strictStep_of_written h (by rw [requestReads_badAccess agent ha]; rfl), step_badAccess h ha]

end Sys2Proof.Machine
end

section
/-! SUPPORT. Exceptions family: every operation commutes with a renaming of the agents (R103). -/

namespace Sys2Proof.Machine

variable (f : Nat → Nat) (s : State)

/-- A request by the agent of the new name. -/
def Request.relabel (q : Request) : Request := { q with agent := f q.agent }

@[simp] theorem Request.relabel_act (q : Request) : (q.relabel f).act = q.act := rfl

@[simp] theorem relabel_port : (relabel f s).port = s.port.map (Request.relabel f) := rfl

/-! ### The operations on a renamed state -/

theorem set_relabel (r : DataReg) (v : Word) :
    (relabel f s).set r v = relabel f (s.set r v) := by
  cases r <;> rfl

theorem reply_relabel (agent : Nat) (v : Word) :
    (relabel f s).reply (f agent) v = relabel f (s.reply agent v) := by
  simp [State.reply, relabel]

theorem noteUninit_relabel (rs : List DataReg) :
    noteUninit rs (relabel f s) = relabel f (noteUninit rs s) := by
  have named : firstUnwritten rs (relabel f s) = firstUnwritten rs s := firstUnwritten_congr rfl rs
  obtain ⟨h, e⟩ | ⟨r, h, e⟩ := noteUninit_cases s rs
  · rw [e, noteUninit, named, h]
  · rw [e, noteUninit_of_unwritten _ (named.trans h)]
    rfl

theorem readWord_relabel (r : RegName) : readWord r (relabel f s) = readWord r s := by
  cases r <;> rfl

theorem hostRead_relabel (agent : Nat) (r : RegName) :
    hostRead (f agent) r (relabel f s) = relabel f (hostRead agent r s) := by
  rw [hostRead, noteUninit_relabel, readWord_relabel, reply_relabel, hostRead]

theorem writeStatus_relabel (v : Word) :
    writeStatus v (relabel f s) = relabel f (writeStatus v s) := by
  unfold writeStatus
  split <;> rfl

theorem afterCommand_relabel (i : Instr) :
    afterCommand i (relabel f s) = relabel f (afterCommand i s) := by
  cases i <;> simp only [afterCommand, noteUninit_relabel] <;> rfl

/-! ### Requests -/

variable {f s}

/-- The effect of a renamed request on the renamed state is the renamed effect. -/
theorem effect_relabel {q : Request} {t : State} (h : Effect s q t) :
    Effect (relabel f s) (q.relabel f) (relabel f t) := by
  cases h with
  | read agent r => rw [← hostRead_relabel]; exact .read (f agent) r
  | command agent v i hv => rw [← afterCommand_relabel]; exact .command (f agent) v i hv
  | illegal agent v hv => exact .illegal (f agent) v hv
  | status agent v => rw [← writeStatus_relabel]; exact .status (f agent) v
  | yout agent v => exact .yout (f agent) v
  | data agent d v hd => rw [← set_relabel]; exact .data (f agent) d v hd
  | reset agent => exact .reset (f agent)

/-- The step of a renamed state is its first request, renamed, on the renamed rest. -/
theorem step_relabel {q : Request} {rest : List Request} (hp : s.port = q :: rest) :
    step (relabel f s) = perform (q.relabel f) (relabel f { s with port := rest }) :=
  step_request (rest := rest.map (Request.relabel f)) _ (by rw [relabel_port, hp, List.map_cons])

end Sys2Proof.Machine
end

section
/-! The statements of the exceptions family, settled. -/

namespace Sys2Proof.Machine

/-- Settles O46: by the cases of the step, an effect is renamed with its request, and a bad access is bad
whoever makes it. -/
theorem agentsAreNotDistinguished : Obligations.AgentsAreNotDistinguished := by
  unfold Obligations.AgentsAreNotDistinguished
  intro f s
  obtain ⟨hp, e⟩ | ⟨q, rest, t, hp, he, e⟩ | ⟨q, rest, a, hp, hq, hw, e⟩ := step_cases s <;> rw [e]
  · exact step_idle _ (by rw [relabel_port, hp, List.map_nil])
  · rw [step_relabel hp, perform_of_effect (effect_relabel he)]
  · rw [step_relabel hp, perform_illFormed ((Request.relabel_act f q).trans hq) hw]

/-- Settles O34: of the effects of a request only an illegal command word raises ILLCMD, and only a clear of
STATUS or a reset takes it down. -/
theorem illcmdIsSticky : Obligations.IllcmdIsSticky := by
  unfold Obligations.IllcmdIsSticky
  intro s t hstep
  obtain ⟨-, rfl⟩ | ⟨⟨agent, act⟩, rest, hp, he⟩ := step_next s hstep
  · exact ⟨fun h0 h1 => by simp [h0] at h1, fun h1 h0 => by simp [h1] at h0⟩
  · refine ⟨fun h0 h1 => ?_, fun h1 h0 => ⟨agent, rest, ?_⟩⟩
    · obtain ⟨v, rfl, hv⟩ := effect_illcmd_rises he h0 h1
      exact ⟨agent, v, rest, hp, hv⟩
    · obtain rfl | ⟨v, rfl, hv⟩ := effect_illcmd_falls he h1 h0
      · exact .inl hp
      · exact .inr ⟨v, hp, hv⟩

/-- Settles O41: a bad access and an illegal word read no register, so no Uninit comes before them; a
command word is its command's encoding, and each effect records at most one event. -/
theorem eventPriority : Obligations.EventPriority := by
  unfold Obligations.EventPriority
  intro s agent a rest hp
  refine ⟨fun h => ?_, fun _ _ h => strictStep_badAccess hp (.inr (.inr h)), ?_, ?_,
    fun t => step_events_cases⟩
  · exact strictStep_badAccess hp (h.imp_right .inl)
  · rintro v rfl hv
    rw [strictStep_illegal hv hp, step_illegal hv hp]
    rfl
  · rintro v i rfl hv
    obtain rfl := decode_eq_ok_iff.mp hv
    obtain ⟨-, strict⟩ := strictCommandFaultsOnUnwrittenOperands i (operandsRead i)
      (by cases i <;> simp [operandsRead])
    obtain ⟨written, unwritten⟩ := strict s agent rest hp
    refine ⟨fun h => ?_, fun h => ?_⟩
    · obtain ⟨r, hr, hw, hfault, -⟩ := unwritten h
      exact ⟨r, hr, hw, hfault⟩
    · obtain ⟨hstrict, -⟩ := written h
      rw [hstrict, step_command_eq_exec hp hv]

end Sys2Proof.Machine
end

section
/-! SUPPORT. Reset family: what a platform reset at the head of the port answers (R111, R112). -/

namespace Sys2Proof.Machine

theorem step_platformReset {s : State} {agent : Nat} {rest : List Request}
    (h : s.port = { agent := agent, act := .platformReset } :: rest) :
    step s = .next (platformReset { s with port := rest }) :=
  step_request s h

/-- STATUS shows only ILLCMD (R27), so it reads 0 while ILLCMD is 0. -/
theorem readWord_status_of_illcmd_false {s : State} (h : s.illcmd = false) :
    readWord .status s = 0x00000000#32 := by
  simp [readWord, statusWord, h]

end Sys2Proof.Machine
end

section
/-! The statement of the reset family, settled. -/

namespace Sys2Proof.Machine

/-- Settles O39: the step is `platformReset` on the rest of the port, which clears ILLCMD and every mark and
leaves the port, the replies and the events alone. -/
theorem platformResetLeavesRegistersUnwritten :
    Obligations.PlatformResetLeavesRegistersUnwritten := by
  unfold Obligations.PlatformResetLeavesRegistersUnwritten
  intro s agent rest hp
  exact ⟨_, step_platformReset hp, readWord_status_of_illcmd_false (platformReset_illcmd _),
    platformReset_isWritten _, platformReset_port _, platformReset_replies _,
    platformReset_events _⟩

end Sys2Proof.Machine
end
